-- ==== Sys2Proof/Word.lean ====
section
/-! DEFINITION. The two data types of the core: the word of every register, operand port and result (W = 32 bits,
00_scope.md R7, R8) and the single bit of `VALID`, `B` and the pushed bits. -/

namespace Sys2Proof

/-- A W-bit word, W = 32 (00_scope.md R7; 92_eei_decisions.md D2). Bit 0 is the least significant (R8). All values
are unsigned: no operation of the core is signed. -/
abbrev Word := BitVec 32

/-- One bit, `true` for 1 and `false` for 0. -/
abbrev Bit := Bool

end Sys2Proof
end

