-- ==== Sys2Proof/Syntax.lean ====
section
/-! DEFINITION. The commands of the core: what the host presents on the command port, and the fourteen commands the
opcode table gives a meaning (30_encoding.md R60 to R64). -/

namespace Sys2Proof

/-- One transaction on the command port as the host presents it: the command word `CMD` and the three operand words
(30_encoding.md R60). Any four words can be presented. -/
structure Command where
  cmd  : Word
  arg0 : Word
  arg1 : Word
  arg2 : Word
deriving DecidableEq, Repr

/-- A decoded command, one constructor per row of the opcode table (30_encoding.md R62). A constructor carries the
operand words the row uses, whole (R63), and not the ones it ignores. -/
inductive Instr where
  /-- CREATE: `m` register length, `g` polynomial in conventional form, `a` initial state in caller form (R80). -/
  | create (m g a : Word)
  /-- CREATE_GENPOLY: `g` polynomial in conventional form (R83). -/
  | createGenpoly (g : Word)
  /-- CREATE_DEFAULT: `m` register length (R84). -/
  | createDefault (m : Word)
  /-- DESTROY (R86). -/
  | destroy
  /-- ADVANCE (R101). -/
  | advance
  /-- GENSYM: `k` bits per symbol (R104). -/
  | gensym (k : Word)
  /-- RESET (R120). -/
  | reset
  /-- GET_M (R122). -/
  | getM
  /-- GET_G (R123). -/
  | getG
  /-- GET_N (R124). -/
  | getN
  /-- GET_V (R125). -/
  | getV
  /-- SET_STATE: `value` the new register value (R127). -/
  | setState (value : Word)
  /-- FILL (R140). -/
  | fill
  /-- PRINT (R143). -/
  | print
deriving DecidableEq, Repr

/-- The mnemonic of a command, as the opcode table spells it (30_encoding.md R62). -/
def Instr.mnemonic : Instr → String
  | .create _ _ _ => "CREATE"
  | .createGenpoly _ => "CREATE_GENPOLY"
  | .createDefault _ => "CREATE_DEFAULT"
  | .destroy => "DESTROY"
  | .advance => "ADVANCE"
  | .gensym _ => "GENSYM"
  | .reset => "RESET"
  | .getM => "GET_M"
  | .getG => "GET_G"
  | .getN => "GET_N"
  | .getV => "GET_V"
  | .setState _ => "SET_STATE"
  | .fill => "FILL"
  | .print => "PRINT"

/-- The operand words a command uses, `ARG0` first (30_encoding.md R62, R64). -/
def Instr.operands : Instr → List Word
  | .create m g a => [m, g, a]
  | .createGenpoly g => [g]
  | .createDefault m => [m]
  | .destroy => []
  | .advance => []
  | .gensym k => [k]
  | .reset => []
  | .getM => []
  | .getG => []
  | .getN => []
  | .getV => []
  | .setState value => [value]
  | .fill => []
  | .print => []

/-- The three construction commands, written CREATE* in the spec (10_state.md R20). -/
def Instr.isConstruction : Instr → Bool
  | .create _ _ _ => true
  | .createGenpoly _ => true
  | .createDefault _ => true
  | .destroy => false
  | .advance => false
  | .gensym _ => false
  | .reset => false
  | .getM => false
  | .getG => false
  | .getN => false
  | .getV => false
  | .setState _ => false
  | .fill => false
  | .print => false

end Sys2Proof
end

