-- ==== Sys2Proof/WellFormed.lean ====
section
/-! DEFINITION. Which command words the encoding admits (30_encoding.md R61, R65). The operand words have no ill-formed
value: each is used whole, whatever it is (R63), and a length out of range is a well-formed command that answers
CONFIG_ERROR (R151). -/

namespace Sys2Proof

/-- `RSV`, bits 31:4 of `CMD` (R61). -/
def Command.rsv (c : Command) : BitVec 28 := c.cmd.extractLsb' 4 28

/-- `OP`, bits 3:0 of `CMD` (R61). -/
def Command.op (c : Command) : BitVec 4 := c.cmd.extractLsb' 0 4

/-- The reserved bits are 0 (R61). -/
def Command.rsvClear (c : Command) : Bool := c.rsv == 0

/-- `OP` is one of the assigned operations 0x0 to 0xD (R62). -/
def Command.opAssigned (c : Command) : Bool := decide (c.op.toNat ≤ 0xD)

/-- A command word is legal when neither ground of R65 makes it illegal. -/
def Command.wf (c : Command) : Bool := c.rsvClear && c.opAssigned

/-- Every decoded command is well formed: its operands are whole words, each with its full range (R61, R63, R64). -/
def Instr.wf : Instr → Bool
  | .create _ _ _ => true
  | .createGenpoly _ => true
  | .createDefault _ => true
  | .destroy => true
  | .advance => true
  | .gensym _ => true
  | .reset => true
  | .getM => true
  | .getG => true
  | .getN => true
  | .getV => true
  | .setState _ => true
  | .fill => true
  | .print => true

end Sys2Proof
end

