-- ==== Sys2Proof/Decode.lean ====
section
/-! DEFINITION. Decoding a presented command (30_encoding.md R68), total on every command word and rejecting by name,
and the encoder written from the same opcode map (R62). -/

namespace Sys2Proof

/-- Why a command word is illegal (30_encoding.md R65). -/
inductive DecodeError where
  /-- `RSV ≠ 0`. -/
  | reservedBits
  /-- `OP` is 0xE or 0xF. -/
  | reservedOpcode
deriving DecidableEq, Repr

/-- The operation field alone, once the reserved bits are known to be 0 (R62, R68). -/
def decodeOp (c : Command) : Except DecodeError Instr :=
  match c.op.toNat with
  | 0x0 => .ok (.create c.arg0 c.arg1 c.arg2)
  | 0x1 => .ok (.createGenpoly c.arg0)
  | 0x2 => .ok (.createDefault c.arg0)
  | 0x3 => .ok .destroy
  | 0x4 => .ok .advance
  | 0x5 => .ok (.gensym c.arg0)
  | 0x6 => .ok .reset
  | 0x7 => .ok .getM
  | 0x8 => .ok .getG
  | 0x9 => .ok .getN
  | 0xA => .ok .getV
  | 0xB => .ok (.setState c.arg0)
  | 0xC => .ok .fill
  | 0xD => .ok .print
  | _ => .error .reservedOpcode

/-- `decode(CMD)` of R68 together with the operand words (R63): the reserved bits first, then the operation. -/
def decode (c : Command) : Except DecodeError Instr :=
  if c.rsvClear then decodeOp c else .error .reservedBits

/-- The command word of a command (R62). -/
def opcode : Instr → Word
  | .create _ _ _ => 0x00000000
  | .createGenpoly _ => 0x00000001
  | .createDefault _ => 0x00000002
  | .destroy => 0x00000003
  | .advance => 0x00000004
  | .gensym _ => 0x00000005
  | .reset => 0x00000006
  | .getM => 0x00000007
  | .getG => 0x00000008
  | .getN => 0x00000009
  | .getV => 0x0000000A
  | .setState _ => 0x0000000B
  | .fill => 0x0000000C
  | .print => 0x0000000D

/-- The words of a command: the opcode, then its operands on `ARG0`, `ARG1`, `ARG2` in order, the omitted ones 0
(R62, R69). -/
def encode (i : Instr) : Command :=
  { cmd := opcode i, arg0 := i.operands.getD 0 0, arg1 := i.operands.getD 1 0, arg2 := i.operands.getD 2 0 }

/-- The presented command whose bits are `w`, numbered as the opcode table numbers them, of which the lowest `nbits`
count and the rest are 0: `CMD` in bits 31..0, then `ARG0`, `ARG1`, `ARG2` (assumption log 9). -/
def commandOfBits (nbits w : Nat) : Command :=
  let bits := w % 2 ^ nbits
  { cmd := BitVec.ofNat 32 bits
    arg0 := BitVec.ofNat 32 (bits >>> 32)
    arg1 := BitVec.ofNat 32 (bits >>> 64)
    arg2 := BitVec.ofNat 32 (bits >>> 96) }

/-- The instruction the decoder reads from an opcode-table word. -/
def decodeTableWord (nbits w : Nat) : Option Instr :=
  match decode (commandOfBits nbits w) with
  | .ok i => some i
  | .error _ => none

end Sys2Proof
end

