-- ==== Sys2Proof/Config.lean ====
section
/-! DEFINITION. What is fixed for one core and is not state (10_state.md R33): the parameters of 00_scope.md R7. The
two parameters the spec leaves open (`DEFAULT_TABLE`, `PRINT_FORMAT`) are constants without a body. -/

namespace Sys2Proof.Config

/-- `M_MIN`, the smallest register length of CREATE and CREATE_GENPOLY (R6, R7). -/
def lengthMin : Nat := 2

/-- `M_MAX`, the largest register length of CREATE and CREATE_GENPOLY (R6, R7). -/
def lengthMax : Nat := 31

/-- `MD_MIN`, the smallest default-table length (R6, R7). -/
def defaultMin : Nat := 2

/-- `MD_MAX`, the largest default-table length (R6, R7). -/
def defaultMax : Nat := 15

/-- FREE VALUE. The stored polynomial `g` of each default-table row but m = 2, as this core's ROM holds it: the open
part of the parameter `DEFAULT_TABLE` (10_state.md R30, 92_eei_decisions.md D16; assumption log 5). It is read only
through `Machine.tablePolynomial`, which keeps the limit the spec sets on it. -/
opaque defaultPolynomial : Nat → Word

/-- FREE VALUE. The parameter `PRINT_FORMAT`: the text PRINT's event `(M, N, V, G)` is rendered as
(43_bridge_and_diagnostic.md R144, 92_eei_decisions.md D18; assumption log 6). -/
opaque printFormat : Word → Word → Word → Word → String

end Sys2Proof.Config
end

