-- ==== Sys2Proof/Machine/Operands.lean ====
section
/-! DEFINITION. What the commands compute from their operand words: the operators of 00_scope.md R9 and the length checks of
40_construction.md R80 and R84. -/

namespace Sys2Proof.Machine

/-- A single bit as a word: 0 or 1. -/
def bitWord (b : Bit) : Word := if b then 1 else 0

/-- The number of set bits among the lowest `k` bits of `x`. -/
def popcountBelow : Nat → Word → Nat
  | 0, _ => 0
  | k + 1, x => popcountBelow k x + (x.getLsbD k).toNat

/-- `popcount(x)`: the number of set bits of `x` (R9). -/
def popcount (x : Word) : Nat := popcountBelow 32 x

/-- `parity(x)`: the sum modulo 2 of the bits of `x` over all W bits (R9). -/
def parity (x : Word) : Bit := popcount x % 2 == 1

/-- `bitlen` of the lowest `k` bits of `x`. -/
def bitlenBelow : Nat → Word → Nat
  | 0, _ => 0
  | k + 1, x => if x.getLsbD k then k + 1 else bitlenBelow k x

/-- `bitlen(x)`: 0 for 0, else 1 + the index of the most significant set bit (R9; 90_conflicts.md C5). -/
def bitlen (x : Word) : Nat := bitlenBelow 32 x

/-- `rev_m(x)`: the low `m` bits of `x` in reversed order, all other bits 0 (R9; 40_construction.md R81). Bit 0 of `x`
goes to bit `m - 1`, and the rest of `x` is reversed below it. -/
def rev : Nat → Word → Word
  | 0, _ => 0
  | m + 1, x => (bitWord (x.getLsbD 0) <<< m) ||| rev m (x >>> 1)

/-- `ones(m) = (1 << m) - 1`: bits `m-1..0` set (R9). -/
def ones (m : Nat) : Word := ((1 : Word) <<< m) - 1

/-- `lo ≤ x ≤ hi`, comparing all W bits of the operand, unsigned (R80, R84). -/
def inRange (lo hi : Nat) (x : Word) : Bool := decide (lo ≤ x.toNat) && decide (x.toNat ≤ hi)

/-- The length check of CREATE and of CREATE_GENPOLY's delegated construction (R80, R83). -/
def lengthOk (m : Word) : Bool := inRange Config.lengthMin Config.lengthMax m

/-- The length check of CREATE_DEFAULT (R84). -/
def defaultLengthOk (m : Word) : Bool := inRange Config.defaultMin Config.defaultMax m

/-- A polynomial in stored form: the caller's word shifted right one bit, unmasked (R80, R82; 90_conflicts.md C9). -/
def storedForm (g : Word) : Word := g >>> 1

/-- The register length CREATE_GENPOLY derives, as the operand it hands to the explicit path (R83). -/
def derivedLength (g : Word) : Word := BitVec.ofNat 32 (bitlen g - 1)

/-- One step of GENSYM's packing: the symbol shifted left, the new bit at bit 0, kept to W bits (41_advancement.md
R104). -/
def packBit (sym : Word) (b : Bit) : Word := (sym <<< 1) ||| bitWord b

end Sys2Proof.Machine
end

