-- ==== Sys2Proof/Machine/State.lean ====
section
/-! DEFINITION. The state of one core: the seven registers of 10_state.md R20 and the three ports of 60_exceptions.md
R163, all plain data; the outcomes a command can have; and the state after power-on reset (70_reset_and_hazards.md
R180). -/

namespace Sys2Proof.Machine

/-- `STATUS`, the outcome of a command (30_encoding.md R66, 60_exceptions.md R150). -/
inductive Status where
  | ok
  | configError
  | noInstance
  | illegalCommand
deriving DecidableEq, Repr

/-- `REASON`, the cause of a configuration error (30_encoding.md R66, 60_exceptions.md R151). -/
inductive Reason where
  | none
  | lengthRange
  | defaultRange
  | polyDegenerate
deriving DecidableEq, Repr

/-- The one response every command ends with (30_encoding.md R66). -/
structure Response where
  status : Status
  reason : Reason
  result : Word
deriving DecidableEq, Repr

/-- An event on the bit-buffer port (43_bridge_and_diagnostic.md R141). -/
inductive BufEvent where
  | clear
  | push (bit : Bit)
deriving DecidableEq, Repr

/-- An event on the diagnostic port: the four values PRINT renders (43_bridge_and_diagnostic.md R143). -/
structure DiagEvent where
  m : Word
  n : Word
  v : Word
  g : Word
deriving DecidableEq, Repr

/-- The tuple `(m, g, a, n, v, b)` that a construction writes, which is also one row of the default table
(10_state.md R30; 70_reset_and_hazards.md R183). -/
structure InstanceRow where
  m : Word
  g : Word
  a : Word
  n : Word
  v : Word
  b : Bit
deriving DecidableEq, Repr

/-- The state of one core. The default table is not here: it is fixed for the core and no command can write it
(10_state.md R33, 20_memory.md R42), so it is the constant `Machine.tableRead`. -/
structure State where
  /-- `VALID`: 1 while an instance exists (R21). -/
  valid : Bit
  /-- `M`, the register length (R22). -/
  m : Word
  /-- `G`, the feedback polynomial in stored form (R23). -/
  g : Word
  /-- `A`, the initial state in stored form (R24). -/
  a : Word
  /-- `N`, the period (R25). -/
  n : Word
  /-- `V`, the live register contents (R26). -/
  v : Word
  /-- `B`, the last output bit (R27). -/
  b : Bit
  /-- The command port: the commands the hosts present, in the order the port accepts them, the next one first
  (30_encoding.md R60; 20_memory.md R49). The model's own field (assumption log 2). -/
  pending : List Command
  /-- The responses returned so far, oldest first (70_reset_and_hazards.md R191). The model's own field: a record of
  outputs (assumption log 3). -/
  responses : List Response
  /-- The events emitted so far on the bit-buffer port, oldest first (R191). The model's own field, as above. -/
  bufEvents : List BufEvent
  /-- The events emitted so far on the diagnostic port, oldest first (R191). The model's own field, as above. -/
  diagEvents : List DiagEvent
deriving DecidableEq, Repr

/-- The faults of a command sequence that the spec asks a model to RECORD (60_exceptions.md R153, R154). They do not
stop the core, which goes on to the next command (R158), so no meaning and no step answers with one; `Safety` reads
them off the responses. Safe: a claim about a run takes their absence as a premise. -/
inductive Fault where
  /-- A NO_INSTANCE response was given: a command other than CREATE* while `VALID = 0` (R153). Safe. -/
  | noInstance
  /-- An ILLEGAL_COMMAND response was given: a reserved command word (R154). Safe. -/
  | illegalCommand
deriving DecidableEq, Repr

/-- Why the model gives an instruction no meaning. -/
inductive Refusal where
  /-- Raised by an arm of `exec` whose instruction has no meaning yet, by its mnemonic. No arm raises it now: every
  command has its meaning. Safe. -/
  | notModelled (mnemonic : String)
deriving DecidableEq, Repr

/-- The core right after power-on reset (70_reset_and_hazards.md R180): `VALID` is 0, no command is presented and no
event is pending. The spec leaves `M`, `G`, `A`, `N`, `V` and `B` unspecified; the model names 0 for each
(DESIGN CHOICE, assumption log 1). -/
def State.reset : State :=
  { valid := false, m := 0, g := 0, a := 0, n := 0, v := 0, b := false
    pending := [], responses := [], bufEvents := [], diagEvents := [] }

end Sys2Proof.Machine
end

