-- ==== Sys2Proof/Machine/Flags.lean ====
section
/-! DEFINITION. The one-bit results of the core. It has no condition codes (10_state.md R32): its one computed bit is the
feedback bit kept in `B`, and a command's outcome is the STATUS and REASON of its response (30_encoding.md R66). -/

namespace Sys2Proof.Machine

/-- The feedback bit, which is the output bit: the parity of `V & G` over all W bits (41_advancement.md R100, R102). -/
def feedbackBit (g v : Word) : Bit := parity (v &&& g)

/-- The 2-bit code of STATUS (R66). -/
def Status.code : Status → BitVec 2
  | .ok => 0
  | .configError => 1
  | .noInstance => 2
  | .illegalCommand => 3

/-- The 2-bit code of REASON (R66). -/
def Reason.code : Reason → BitVec 2
  | .none => 0
  | .lengthRange => 1
  | .defaultRange => 2
  | .polyDegenerate => 3

/-- The packed response status word `RSP = (REASON << 2) | STATUS`, bits 31:4 zero (R66). -/
def Response.rsp (r : Response) : Word := (r.reason.code.setWidth 32 <<< 2) ||| r.status.code.setWidth 32

end Sys2Proof.Machine
end

