-- ==== Sys2Proof/Machine/Sequence.lean ====
section
/-! DEFINITION. The shift register on its own: the step of 41_advancement.md R100 as a function of `G`, `N` and `V`, and
what it gives over several steps. -/

namespace Sys2Proof.Machine

/-- `((V << 1) | B) & N`: shift toward the MSB, the new bit at bit 0, keep the register's bits (R100). -/
def shiftIn (n v : Word) (b : Bit) : Word := ((v <<< 1) ||| bitWord b) &&& n

/-- The register after one `advance()` (R100). -/
def nextRegister (g n v : Word) : Word := shiftIn n v (feedbackBit g v)

/-- The register after `k` steps from `v`. -/
def registerAfter (g n : Word) : Nat → Word → Word
  | 0, v => v
  | k + 1, v => registerAfter g n k (nextRegister g n v)

/-- The first `k` output bits from `v`, in the order they are produced. -/
def outputBits (g n : Word) : Nat → Word → List Bit
  | 0, _ => []
  | k + 1, v => feedbackBit g v :: outputBits g n k (nextRegister g n v)

/-- The symbol that packs `bits`, most significant first, kept to W bits (R104). -/
def packBits (bits : List Bit) : Word := bits.foldl packBit 0

end Sys2Proof.Machine
end

