-- ==== Sys2Proof/Machine/Ops.lean ====
section
/-! DEFINITION. The operations the commands share: writing registers, the primitives of 00_scope.md R10 (`respond`, the three
`raise`s, `emit_buf`, `emit_print`, `advance`), and the command port. The core has no trap mechanism: an error is a
response and nothing else (60_exceptions.md R157, R158), so `raise…` stand where another core takes an exception. -/

namespace Sys2Proof.Machine

/-- What a command answers. -/
abbrev Answer := Host.Outcome State Fault Refusal

/-! ### Register writes and port outputs -/

/-- `VALID <- v`. -/
def State.setValid (s : State) (v : Bit) : State := { s with valid := v }

/-- `V <- v`. -/
def State.setV (s : State) (v : Word) : State := { s with v := v }

/-- `B <- b`. -/
def State.setB (s : State) (b : Bit) : State := { s with b := b }

/-- `(M, G, A, N, V, B) <- row` and `VALID <- 1`: a successful construction writes all seven registers
(40_construction.md R80, R84, R85). -/
def State.construct (s : State) (row : InstanceRow) : State :=
  { s with valid := true, m := row.m, g := row.g, a := row.a, n := row.n, v := row.v, b := row.b }

/-- One more response on the command port. -/
def State.addResponse (s : State) (r : Response) : State := { s with responses := s.responses ++ [r] }

/-- `emit_buf(e)` (00_scope.md R10). The port accepts every event (70_reset_and_hazards.md R187). -/
def State.emitBuf (s : State) (e : BufEvent) : State := { s with bufEvents := s.bufEvents ++ [e] }

/-- `emit_print(M, N, V, G)` (00_scope.md R10). -/
def State.emitPrint (s : State) (e : DiagEvent) : State := { s with diagEvents := s.diagEvents ++ [e] }

/-! ### Ending a command -/

/-- `respond(status, reason, result)` (00_scope.md R10; 30_encoding.md R66). -/
def respond (status : Status) (reason : Reason) (result : Word) (s : State) : Answer :=
  .next (s.addResponse { status := status, reason := reason, result := result })

/-- `respond(OK, NONE, result)`. -/
def respondOk (result : Word) (s : State) : Answer := respond .ok .none result s

/-- `raise ConfigurationError(reason)`: no state change (60_exceptions.md R151). -/
def raiseConfigurationError (reason : Reason) (s : State) : Answer := respond .configError reason 0 s

/-- `raise NoInstance()`: no state change, no event (60_exceptions.md R153). -/
def raiseNoInstance (s : State) : Answer := respond .noInstance .none 0 s

/-- `raise IllegalCommand()`: no state change, no event (60_exceptions.md R154). -/
def raiseIllegalCommand (s : State) : Answer := respond .illegalCommand .none 0 s

/-- `if VALID = 0: raise NoInstance()`, then the rest of the command (10_state.md R21; 60_exceptions.md R153). -/
def needInstance (s : State) (body : State → Answer) : Answer :=
  if s.valid then body s else raiseNoInstance s

/-! ### The advancement step -/

/-- `advance()`: the bit it returns and the state with `B` and `V` written (41_advancement.md R100). -/
def advance (s : State) : Bit × State :=
  let b := feedbackBit s.g s.v
  (b, (s.setB b).setV (shiftIn s.n s.v b))

/-- GENSYM's loop: `k` times `sym = ((sym << 1) | advance()) mod 2^32` (41_advancement.md R104). -/
def symbolLoop : Nat → Word → State → Word × State
  | 0, sym, s => (sym, s)
  | k + 1, sym, s => symbolLoop k (packBit sym (advance s).1) (advance s).2

/-- FILL's loop: `k` times `emit_buf(Push(advance()))` (43_bridge_and_diagnostic.md R140). -/
def pushLoop : Nat → State → State
  | 0, s => s
  | k + 1, s => pushLoop k ((advance s).2.emitBuf (.push (advance s).1))

/-! ### The command port -/

/-- A host presents `c`, to be accepted after the commands already presented (20_memory.md R49, R50). -/
def State.submit (s : State) (c : Command) : State := { s with pending := s.pending ++ [c] }

/-- `c` is the very next command the port accepts. -/
def State.present (s : State) (c : Command) : State := { s with pending := c :: s.pending }

/-- The port accepts the next command, if one is presented (30_encoding.md R60; 70_reset_and_hazards.md R185). -/
def acceptCommand (s : State) : Option (Command × State) :=
  match s.pending with
  | [] => none
  | c :: rest => some (c, { s with pending := rest })

end Sys2Proof.Machine
end

