-- ==== Sys2Proof/Machine/Access.lean ====
section
/-! DEFINITION. The reset and state-access commands (42_state_access.md). -/

namespace Sys2Proof.Machine

/-- RESET (R120): `V <- A` and nothing else. -/
def execReset (s : State) : Answer := needInstance s fun s => respondOk 0 (s.setV s.a)

/-- GET_M (R122). -/
def execGetM (s : State) : Answer := needInstance s fun s => respondOk s.m s

/-- GET_G (R123): the stored form. -/
def execGetG (s : State) : Answer := needInstance s fun s => respondOk s.g s

/-- GET_N (R124). -/
def execGetN (s : State) : Answer := needInstance s fun s => respondOk s.n s

/-- GET_V (R125). -/
def execGetV (s : State) : Answer := needInstance s fun s => respondOk s.v s

/-- SET_STATE (R127): the operand as given, no masking. -/
def execSetState (value : Word) (s : State) : Answer := needInstance s fun s => respondOk 0 (s.setV value)

end Sys2Proof.Machine
end

