-- ==== Sys2Proof/Machine/Advancement.lean ====
section
/-! DEFINITION. The advancement commands (41_advancement.md). -/

namespace Sys2Proof.Machine

/-- ADVANCE (R101). -/
def execAdvance (s : State) : Answer := needInstance s fun s => respondOk (bitWord (advance s).1) (advance s).2

/-- GENSYM (R104). -/
def execGensym (k : Word) (s : State) : Answer :=
  needInstance s fun s => respondOk (symbolLoop k.toNat 0 s).1 (symbolLoop k.toNat 0 s).2

end Sys2Proof.Machine
end

