-- ==== Sys2Proof/Machine/Bridge.lean ====
section
/-! DEFINITION. The buffer bridge and the diagnostic command (43_bridge_and_diagnostic.md). -/

namespace Sys2Proof.Machine

/-- FILL (R140): `Clear`, then exactly `N` pushes. -/
def execFill (s : State) : Answer :=
  needInstance s fun s => respondOk 0 (pushLoop s.n.toNat (s.emitBuf .clear))

/-- PRINT (R143): one diagnostic event carrying `(M, N, V, G)`. -/
def execPrint (s : State) : Answer :=
  needInstance s fun s => respondOk 0 (s.emitPrint { m := s.m, n := s.n, v := s.v, g := s.g })

/-- The text the diagnostic port renders for an event, by the parameter `PRINT_FORMAT` (R144). -/
def DiagEvent.text (e : DiagEvent) : String := Config.printFormat e.m e.n e.v e.g

end Sys2Proof.Machine
end

