-- ==== Sys2Proof/Machine/Rom.lean ====
section
/-! DEFINITION. The default-table ROM, the core's only address space (20_memory.md R40): read-only, indexed by the register
length 2..15 and read only by CREATE_DEFAULT (R41, R42). -/

namespace Sys2Proof.Machine

/-- The canonical initial state 1 in stored form, `rev_m(1) = 2^(m-1)` (10_state.md R30). -/
def canonicalState (m : Nat) : Word := (1 : Word) <<< (m - 1)

/-- What the spec says of the polynomial of every row: it is a stored form of `m` bits (10_state.md R23), and from the
canonical state one period brings the register back with `2^(m-1)` ones produced (R30, 41_advancement.md R106). -/
def isTabulable (m : Nat) (g : Word) : Bool :=
  decide (g.toNat < 2 ^ m) &&
    registerAfter g (ones m) (2 ^ m - 1) (canonicalState m) == canonicalState m &&
    (outputBits g (ones m) (2 ^ m - 1) (canonicalState m)).count true == 2 ^ (m - 1)

/-- The candidate `g` of each row (10_state.md R30). -/
def candidatePolynomial : Nat → Word
  | 3 => 0x0005
  | 4 => 0x0009
  | 5 => 0x0012
  | 6 => 0x0021
  | 7 => 0x0044
  | 8 => 0x008E
  | 9 => 0x0108
  | 10 => 0x0204
  | 11 => 0x0402
  | 12 => 0x0829
  | 13 => 0x100D
  | 14 => 0x2015
  | 15 => 0x4001
  | _ => 0x0003

/-- The stored `g` of row `m`. Row 2 is fixed (10_state.md R30). Every other row is the free value of `Config`, which
ranges over all the polynomials the spec allows the row: where it is none of them, the row's candidate stands for it
(DESIGN CHOICE, assumption log 5). -/
def tablePolynomial (m : Nat) : Word :=
  if m = 2 then candidatePolynomial 2
  else if isTabulable m (Config.defaultPolynomial m) then Config.defaultPolynomial m
  else candidatePolynomial m

/-- `TableRead(m)`: the row `(m, g, a, n, v, b)` for length `m` in 2..15 (10_state.md R30; 20_memory.md R41). No command
reads it at another index. -/
def tableRead (m : Nat) : InstanceRow :=
  { m := BitVec.ofNat 32 m
    g := tablePolynomial m
    a := canonicalState m
    n := ones m
    v := canonicalState m
    b := false }

end Sys2Proof.Machine
end

