-- ==== Sys2Proof/Machine/Construction.lean ====
section
/-! DEFINITION. The construction and destruction commands (40_construction.md). The three CREATE commands run whatever `VALID` is. -/

namespace Sys2Proof.Machine

/-- The row the explicit path writes from `m`, `g` and `a` (R80, R81, R82). -/
def explicitRow (m g a : Word) : InstanceRow :=
  { m := m
    g := storedForm g
    a := rev m.toNat a
    n := ones m.toNat
    v := rev m.toNat a
    b := false }

/-- The explicit path, which CREATE is and CREATE_GENPOLY delegates to (R80, R83). -/
def constructExplicit (m g a : Word) (s : State) : Answer :=
  if lengthOk m then respondOk 0 (s.construct (explicitRow m g a)) else raiseConfigurationError .lengthRange s

/-- CREATE (R80). -/
def execCreate (m g a : Word) (s : State) : Answer := constructExplicit m g a s

/-- CREATE_GENPOLY (R83): the degenerate check first, then the explicit path with the derived length and `a = 1`. -/
def execCreateGenpoly (g : Word) (s : State) : Answer :=
  if bitlen g < 2 then raiseConfigurationError .polyDegenerate s else constructExplicit (derivedLength g) g 1 s

/-- CREATE_DEFAULT (R84): the row copied verbatim. -/
def execCreateDefault (m : Word) (s : State) : Answer :=
  if defaultLengthOk m then respondOk 0 (s.construct (tableRead m.toNat)) else raiseConfigurationError .defaultRange s

/-- DESTROY (R86). -/
def execDestroy (s : State) : Answer := needInstance s fun s => respondOk 0 (s.setValid false)

end Sys2Proof.Machine
end

