-- ==== Sys2Proof/Machine/Dispatch.lean ====
section
/-! DEFINITION. One arm per command of the opcode table (30_encoding.md R62). -/

namespace Sys2Proof.Machine

def exec (i : Instr) (s : State) : Host.Outcome State Fault Refusal :=
  match i with
  | .create m g a => Sys2Proof.Machine.execCreate m g a s
  | .createGenpoly g => Sys2Proof.Machine.execCreateGenpoly g s
  | .createDefault m => Sys2Proof.Machine.execCreateDefault m s
  | .destroy => Sys2Proof.Machine.execDestroy s
  | .advance => Sys2Proof.Machine.execAdvance s
  | .gensym k => Sys2Proof.Machine.execGensym k s
  | .reset => Sys2Proof.Machine.execReset s
  | .getM => Sys2Proof.Machine.execGetM s
  | .getG => Sys2Proof.Machine.execGetG s
  | .getN => Sys2Proof.Machine.execGetN s
  | .getV => Sys2Proof.Machine.execGetV s
  | .setState value => Sys2Proof.Machine.execSetState value s
  | .fill => Sys2Proof.Machine.execFill s
  | .print => Sys2Proof.Machine.execPrint s

end Sys2Proof.Machine
end

