-- ==== Sys2Proof/Machine/Step.lean ====
section
/-! DEFINITION. One step of the core: it accepts one command and runs it to its response (00_scope.md R11; 30_encoding.md R60). -/

namespace Sys2Proof.Machine

/-- With no command presented the core is idle, and idling changes no state (60_exceptions.md R166). Otherwise it decodes
the next command: an illegal word is rejected before `VALID` is read (30_encoding.md R65; 60_exceptions.md R156), and a
legal one runs. -/
def step (s : State) : Host.Outcome State Fault Refusal :=
  match acceptCommand s with
  | none => .next s
  | some (c, s') =>
    match decode c with
    | .ok i => exec i s'
    | .error _ => raiseIllegalCommand s'

/-- `s` with the command whose bits are `w` presented as the very next one (assumption logs 2 and 9). -/
def State.withFetchWord (s : State) (nbits w : Nat) : State := s.present (commandOfBits nbits w)

end Sys2Proof.Machine
end

