-- ==== Sys2Proof/Machine/Assembler.lean ====
section
/-! DEFINITION. The assembler of 30_encoding.md R69 and R70: one command per line, `MNEMONIC [op0 [, op1 [, op2]]]`. The
lexical points the rule leaves open are in assumption log 10. -/

namespace Sys2Proof.Machine

/-- Why a line does not assemble. -/
inductive AsmError where
  /-- The first word is no mnemonic. -/
  | unknownMnemonic
  /-- The operand count is not the mnemonic's: "A wrong count is an assembly error" (R69). -/
  | wrongOperandCount
  /-- An operand is not an unsigned decimal or `0x` literal. -/
  | badLiteral
  /-- A literal does not fit an operand word. -/
  | operandTooLarge
deriving DecidableEq, Repr

/-- Each mnemonic with its operand count and operation (R62, R69), and the one pseudo-instruction `SKIP`, which
assembles to `GENSYM` (R70). -/
def asmTable : List (String × Nat × Word) :=
  [("CREATE", 3, 0x0), ("CREATE_GENPOLY", 1, 0x1), ("CREATE_DEFAULT", 1, 0x2), ("DESTROY", 0, 0x3), ("ADVANCE", 0, 0x4),
    ("GENSYM", 1, 0x5), ("RESET", 0, 0x6), ("GET_M", 0, 0x7), ("GET_G", 0, 0x8), ("GET_N", 0, 0x9), ("GET_V", 0, 0xA),
    ("SET_STATE", 1, 0xB), ("FILL", 0, 0xC), ("PRINT", 0, 0xD), ("SKIP", 1, 0x5)]

/-- One statement: the operands on `ARG0`, `ARG1`, `ARG2` in order, the omitted ones 0 (R69). -/
def assembleStatement (name : String) (ops : List Nat) : Except AsmError Command :=
  match asmTable.find? fun row => row.1 == name with
  | none => .error .unknownMnemonic
  | some (_, count, op) =>
    if ops.length ≠ count then .error .wrongOperandCount
    else if ops.any fun x => decide (2 ^ 32 ≤ x) then .error .operandTooLarge
    else
      .ok { cmd := op
            arg0 := BitVec.ofNat 32 (ops.getD 0 0)
            arg1 := BitVec.ofNat 32 (ops.getD 1 0)
            arg2 := BitVec.ofNat 32 (ops.getD 2 0) }

/-! ### Text -/

/-- Space, tab and carriage return separate words. -/
def isBlank (c : Char) : Bool := c == ' ' || c == '\t' || c == '\r'

/-- Without the blanks at either end. -/
def trimBlanks (cs : List Char) : List Char := ((cs.dropWhile isBlank).reverse.dropWhile isBlank).reverse

/-- The pieces between the separators. -/
def splitAtChar (sep : Char) : List Char → List (List Char)
  | [] => [[]]
  | c :: cs =>
    match splitAtChar sep cs with
    | [] => [[]]
    | piece :: rest => if c == sep then [] :: piece :: rest else (c :: piece) :: rest

/-- The value of a digit below `base`. -/
def digitValue (base : Nat) (c : Char) : Option Nat :=
  let x := c.toNat
  let d := if 48 ≤ x ∧ x ≤ 57 then x - 48 else if 97 ≤ x ∧ x ≤ 102 then x - 87 else if 65 ≤ x ∧ x ≤ 70 then x - 55 else base
  if d < base then some d else none

/-- The value of a run of digits after those already worth `acc`. -/
def digitsValue (base : Nat) : Nat → List Char → Option Nat
  | acc, [] => some acc
  | acc, c :: cs =>
    match digitValue base c with
    | none => none
    | some d => digitsValue base (acc * base + d) cs

/-- An unsigned literal, decimal or `0x` hexadecimal (R69). -/
def literalValue : List Char → Option Nat
  | [] => none
  | '0' :: 'x' :: [] => none
  | '0' :: 'x' :: ds => digitsValue 16 0 ds
  | ds => digitsValue 10 0 ds

/-- The literals of an operand list, or none if one of them is not a literal. -/
def literalValues : List (List Char) → Option (List Nat)
  | [] => some []
  | p :: ps =>
    match literalValue (trimBlanks p), literalValues ps with
    | some x, some xs => some (x :: xs)
    | _, _ => none

/-- One line, without its line end: nothing for a line that is blank or only a comment, else the command (R69). -/
def assembleLine (cs : List Char) : Except AsmError (Option Command) :=
  let text := trimBlanks (cs.takeWhile fun c => c != ';')
  if text.isEmpty then .ok none
  else
    let name := text.takeWhile fun c => !isBlank c
    let rest := trimBlanks (text.dropWhile fun c => !isBlank c)
    match if rest.isEmpty then some [] else literalValues (splitAtChar ',' rest) with
    | none => .error .badLiteral
    | some ops => (assembleStatement (String.ofList name) ops).map some

/-- The commands of the lines, in order, or the first error. -/
def assembleLines : List (List Char) → Except AsmError (List Command)
  | [] => .ok []
  | l :: ls =>
    match assembleLine l with
    | .error e => .error e
    | .ok c =>
      match assembleLines ls with
      | .error e => .error e
      | .ok cs => .ok (c.toList ++ cs)

/-- A program text, one command per line (R69). -/
def assemble (text : String) : Except AsmError (List Command) := assembleLines (splitAtChar '\n' text.toList)

end Sys2Proof.Machine
end

