-- ==== Sys2Proof/Safety.lean ====
section
/-! DEFINITION. The terms claims use: recorded faults and safe states (60_exceptions.md R153, R154), the invariants of
10_state.md R28, running several commands (70_reset_and_hazards.md R191), polynomials of full period, and states that
differ only where nothing observes it. -/

namespace Sys2Proof.Machine

/-! ### Recorded faults -/

/-- The fault a response records, if any (R150, R153, R154): a configuration error is an ordinary response (R151). -/
def Response.fault? (r : Response) : Option Fault :=
  match r.status with
  | .ok => none
  | .configError => none
  | .noInstance => some .noInstance
  | .illegalCommand => some .illegalCommand

/-- The faults recorded so far, oldest first (70_reset_and_hazards.md R191). -/
def State.recordedFaults (s : State) : List Fault := s.responses.filterMap Response.fault?

/-- A run that has reached `s` is safe when it has no recorded fault. -/
abbrev State.Safe (s : State) : Prop := s.recordedFaults = []

/-! ### Invariants -/

/-- R28, items 1 and 2: while `VALID = 1`, `2 ≤ M ≤ 31`, `N = 2^M - 1` and `A ≤ N`. -/
abbrev State.Inv (s : State) : Prop :=
  s.valid = true →
    2 ≤ s.m.toNat ∧ s.m.toNat ≤ 31 ∧ s.n.toNat = 2 ^ s.m.toNat - 1 ∧ s.a.toNat ≤ s.n.toNat

/-- R28, item 3: while `VALID = 1`, `V ≤ N`. SET_STATE may break it (10_state.md R26). -/
abbrev State.Masked (s : State) : Prop := s.valid = true → s.v.toNat ≤ s.n.toNat

/-- R66: `REASON` is NONE unless the status is CONFIG_ERROR, and `RESULT` is 0 unless the status is OK. -/
abbrev Response.WellShaped (r : Response) : Prop :=
  (r.status ≠ .configError → r.reason = .none) ∧ (r.status ≠ .ok → r.result = 0)

/-! ### Running several commands -/

/-- The commands `is` one after another, each from the state the one before left (20_memory.md R49). -/
def execAll : List Instr → State → Answer
  | [], s => .next s
  | i :: is, s =>
    match exec i s with
    | .next s' => execAll is s'
    | .fault f => .fault f
    | .refused r => .refused r

/-! ### Polynomials -/

/-- What the period law asks of a polynomial `g` of length `m` (41_advancement.md R106; 43_bridge_and_diagnostic.md R142, "a
primitive polynomial of degree M"): from the canonical state the register first comes back after `2^m - 1` steps. The
balance of a period is not part of it. -/
abbrev HasFullPeriod (m : Nat) (g : Word) : Prop :=
  registerAfter g (ones m) (2 ^ m - 1) (canonicalState m) = canonicalState m ∧
    ∀ t < 2 ^ m - 1, 0 < t → registerAfter g (ones m) t (canonicalState m) ≠ canonicalState m

/-! ### States that differ only where nothing observes it -/

/-- The two states agree on the ports: the presented commands and all the outputs so far (70_reset_and_hazards.md R191). -/
abbrev SamePorts (s t : State) : Prop :=
  s.pending = t.pending ∧ s.responses = t.responses ∧ s.bufEvents = t.bufEvents ∧ s.diagEvents = t.diagEvents

/-- The two states agree on everything but, while `VALID = 0`, the six registers the spec then calls unspecified
(70_reset_and_hazards.md R180; 40_construction.md R86). -/
abbrev AgreeWhileValid (s t : State) : Prop :=
  SamePorts s t ∧ s.valid = t.valid ∧
    (s.valid = true → s.m = t.m ∧ s.g = t.g ∧ s.a = t.a ∧ s.n = t.n ∧ s.v = t.v ∧ s.b = t.b)

/-- The two states agree on everything but `B` (10_state.md R27). -/
abbrev AgreeButB (s t : State) : Prop :=
  SamePorts s t ∧ s.valid = t.valid ∧ s.m = t.m ∧ s.g = t.g ∧ s.a = t.a ∧ s.n = t.n ∧ s.v = t.v

end Sys2Proof.Machine
end

