-- ==== Sys2Proof/Certificates/Slice0/Obligations.lean ====
section
/-! DEFINITION. The statements for the provers. Where a statement gives the next state as `{ s with … }`, that equation is
also the frame: every field it does not name is unchanged. The first clause of a command's effect is its encoding, which leaves the
operand words the command ignores free. -/

open Sys2Proof Sys2Proof.Machine

/-! ### Encoding and decoding -/

/-- 30_encoding.md R62, R63, R68: decoding is inverse to encoding, and the decoder gives `i` exactly for the command words of
`i` whose used operand words are those `i` carries. -/
def Obligations.DecodeInvertsEncode : Prop :=
  (∀ i : Instr, decode (encode i) = .ok i) ∧
    ∀ (c : Command) (i : Instr),
      decode c = .ok i ↔
        c.cmd = (encode i).cmd ∧ i.operands = [c.arg0, c.arg1, c.arg2].take i.operands.length

/-- 30_encoding.md R65, R68: a command word is refused for its reserved bits exactly when `CMD[31:4] ≠ 0`, and for its
operation exactly when it is 0xE or 0xF; every other word decodes. -/
def Obligations.DecoderRefusesExactlyReservedWords : Prop :=
  ∀ c : Command,
    (decode c = .error .reservedBits ↔ 16 ≤ c.cmd.toNat) ∧
    (decode c = .error .reservedOpcode ↔ c.cmd = 0xE ∨ c.cmd = 0xF) ∧
    ((∃ i, decode c = .ok i) ↔ c.cmd.toNat ≤ 0xD)

/-- 30_encoding.md R71: the example encodings, assembled and decoded. -/
def Obligations.ExampleEncodings : Prop :=
  (assembleStatement "CREATE" [4, 0x13, 1] = .ok ⟨0x0, 4, 0x13, 1⟩ ∧ decode ⟨0x0, 4, 0x13, 1⟩ = .ok (.create 4 0x13 1)) ∧
  (assembleStatement "CREATE_GENPOLY" [0xB] = .ok ⟨0x1, 0xB, 0, 0⟩ ∧ decode ⟨0x1, 0xB, 0, 0⟩ = .ok (.createGenpoly 0xB)) ∧
  (assembleStatement "CREATE_DEFAULT" [2] = .ok ⟨0x2, 2, 0, 0⟩ ∧ decode ⟨0x2, 2, 0, 0⟩ = .ok (.createDefault 2)) ∧
  (assembleStatement "ADVANCE" [] = .ok ⟨0x4, 0, 0, 0⟩ ∧ decode ⟨0x4, 0, 0, 0⟩ = .ok .advance) ∧
  (assembleStatement "GENSYM" [8] = .ok ⟨0x5, 8, 0, 0⟩ ∧ decode ⟨0x5, 8, 0, 0⟩ = .ok (.gensym 8)) ∧
  (assembleStatement "SET_STATE" [0] = .ok ⟨0xB, 0, 0, 0⟩ ∧ decode ⟨0xB, 0, 0, 0⟩ = .ok (.setState 0))

/-- 30_encoding.md R69, R70: a mnemonic with its operands assembles to the words of its command, a wrong operand count is an
assembly error, and `SKIP` assembles as `GENSYM` does. -/
def Obligations.AssemblerAgreesWithEncoder : Prop :=
  (∀ i : Instr, assembleStatement i.mnemonic (i.operands.map BitVec.toNat) = .ok (encode i)) ∧
  (∀ (i : Instr) (ops : List Nat), ops.length ≠ i.operands.length →
    assembleStatement i.mnemonic ops = .error .wrongOperandCount) ∧
  ∀ ops : List Nat, assembleStatement "SKIP" ops = assembleStatement "GENSYM" ops

/-- 30_encoding.md R63: an operand word the command ignores has no effect, whatever its value. -/
def Obligations.IgnoredOperandsHaveNoEffect : Prop :=
  ∀ (s : State) (c c' : Command) (i : Instr), decode c = .ok i → c'.cmd = c.cmd →
    [c'.arg0, c'.arg1, c'.arg2].take i.operands.length = [c.arg0, c.arg1, c.arg2].take i.operands.length →
    step (s.present c') = step (s.present c)

/-- 30_encoding.md R66: the packed response status word holds STATUS in bits 1:0, REASON in bits 3:2 and zero above, with the
codes of the table. -/
def Obligations.PackedStatusWord : Prop :=
  ∀ x : Word,
    (Response.rsp ⟨.ok, .none, x⟩).toNat = 0 ∧
    (Response.rsp ⟨.configError, .lengthRange, x⟩).toNat = 1 * 4 + 1 ∧
    (Response.rsp ⟨.configError, .defaultRange, x⟩).toNat = 2 * 4 + 1 ∧
    (Response.rsp ⟨.configError, .polyDegenerate, x⟩).toNat = 3 * 4 + 1 ∧
    (Response.rsp ⟨.noInstance, .none, x⟩).toNat = 2 ∧
    (Response.rsp ⟨.illegalCommand, .none, x⟩).toNat = 3

/-! ### The step -/

/-- 20_memory.md R49, 30_encoding.md R60: a step accepts the next command, and when its words decode to `i` the step is `exec i`
from the state in which the port has moved past it. -/
def Obligations.StepRunsTheDecodedCommand : Prop :=
  ∀ (s : State) (c : Command) (rest : List Command) (i : Instr), s.pending = c :: rest → decode c = .ok i →
    step s = exec i { s with pending := rest }

/-- 60_exceptions.md R166: with no command presented the core is idle, and idling changes no state. -/
def Obligations.IdlingChangesNothing : Prop :=
  ∀ s : State, s.pending = [] → step s = .next s

/-- 30_encoding.md R65, 60_exceptions.md R154: an illegal command word answers ILLEGAL_COMMAND whatever `VALID` is, changes no
register, emits no event, and is recorded as a fault. -/
def Obligations.IllegalCommandIsRejected : Prop :=
  ∀ (s : State) (c : Command) (rest : List Command), s.pending = c :: rest →
    (16 ≤ c.cmd.toNat ∨ c.cmd = 0xE ∨ c.cmd = 0xF) →
    ∃ t, step s = .next t ∧
      t = { s with pending := rest, responses := s.responses ++ [⟨.illegalCommand, .none, 0⟩] } ∧
      t.recordedFaults = s.recordedFaults ++ [.illegalCommand]

/-- 60_exceptions.md R150, R158 and 30_encoding.md R66: every presented command, in every state, completes with exactly one
response of the stated shape, and the core then stands ready for the next one. -/
def Obligations.EveryCommandAnswersOnce : Prop :=
  ∀ (s : State) (c : Command) (rest : List Command), s.pending = c :: rest →
    ∃ t r, step s = .next t ∧ t.pending = rest ∧ t.responses = s.responses ++ [r] ∧ r.WellShaped

/-- 93_implementation_defined.md section 1, 60_exceptions.md R158: no behaviour of the core is stuck. From every state a run of
any length goes on, faults of the command sequence included. -/
def Obligations.NoRunEverStops : Prop :=
  ∀ (k : Nat) (s : State), ∃ t, core.run k s = .next t

/-- 20_memory.md R49, 70_reset_and_hazards.md R185: a command presented while another is to run is held, and neither changes what
the earlier one does nor is changed by it. -/
def Obligations.LaterCommandsAreHeld : Prop :=
  ∀ (s t : State) (c : Command), s.pending ≠ [] → step s = .next t → step (s.submit c) = .next (t.submit c)

/-- 70_reset_and_hazards.md R191, 60_exceptions.md R151, R153, R154: recorded faults are kept, and a step adds exactly one
ILLEGAL_COMMAND when it accepts an illegal word, exactly one NO_INSTANCE when it accepts a command other than CREATE* while
`VALID = 0`, and nothing otherwise: not for a configuration error, and not when idle. (Reading the record off the responses is
the model's choice, assumption log 4.) -/
def Obligations.FaultsRecordedExactly : Prop :=
  ∀ s t : State, step s = .next t →
    (s.pending = [] → t.recordedFaults = s.recordedFaults) ∧
    ∀ c rest, s.pending = c :: rest →
      (∀ e, decode c = .error e → t.recordedFaults = s.recordedFaults ++ [.illegalCommand]) ∧
      ∀ i, decode c = .ok i →
        t.recordedFaults = s.recordedFaults ++ if i.isConstruction = false ∧ s.valid = false then [.noInstance] else []

/-! ### Power-on reset -/

/-- 70_reset_and_hazards.md R180: after power-on reset `VALID` is 0, no event is pending and nothing has been answered. (The six
unspecified registers are the model's choice, assumption log 1, and are not stated here.) -/
def Obligations.PowerOnHasNoInstance : Prop :=
  State.reset.valid = false ∧ State.reset.bufEvents = [] ∧ State.reset.diagEvents = [] ∧ State.reset.responses = [] ∧
    State.reset.pending = []

/-- 70_reset_and_hazards.md R180, 40_construction.md R86: what `M`, `G`, `A`, `N`, `V` and `B` hold while `VALID = 0` changes no
observation of any run. -/
def Obligations.UnspecifiedRegistersAreUnobservable : Prop :=
  ∀ (k : Nat) (s t : State), AgreeWhileValid s t →
    ∃ s' t', core.run k s = .next s' ∧ core.run k t = .next t' ∧ AgreeWhileValid s' t'

/-- 10_state.md R27: what `B` holds changes no observation of any run and no other register. -/
def Obligations.LastOutputBitIsUnobservable : Prop :=
  ∀ (k : Nat) (s t : State), AgreeButB s t →
    ∃ s' t', core.run k s = .next s' ∧ core.run k t = .next t' ∧ AgreeButB s' t'

/-! ### Construction and destruction -/

/-- 40_construction.md R80: CREATE writes all seven registers when `2 ≤ m ≤ 31`, whatever `g` and `a` are, and otherwise answers
LENGTH_RANGE and writes none. -/
def Obligations.CreateEffect : Prop :=
  (∀ m g a : Word, decode ⟨0x0, m, g, a⟩ = .ok (.create m g a)) ∧
  ∀ (m g a : Word) (s : State),
    (2 ≤ m.toNat ∧ m.toNat ≤ 31 →
      exec (.create m g a) s = .next
        { s with
          valid := true, m := m, g := g >>> 1, a := rev m.toNat a, n := ((1 : Word) <<< m.toNat) - 1,
          v := rev m.toNat a, b := false, responses := s.responses ++ [⟨.ok, .none, 0⟩] }) ∧
    (¬(2 ≤ m.toNat ∧ m.toNat ≤ 31) →
      exec (.create m g a) s = .next { s with responses := s.responses ++ [⟨.configError, .lengthRange, 0⟩] })

/-- 40_construction.md R81: the stored initial state is exactly the low `m` bits of the operand reversed, and the operand's bits
from `m` on are discarded. -/
def Obligations.InitialStateIsReversed : Prop :=
  (∀ (m g a : Word) (s : State), 2 ≤ m.toNat → m.toNat ≤ 31 →
    ∃ t, exec (.create m g a) s = .next t ∧ t.v = t.a ∧
      (∀ i, i < m.toNat → t.a.getLsbD (m.toNat - 1 - i) = a.getLsbD i) ∧
      (∀ i, m.toNat ≤ i → t.a.getLsbD i = false) ∧
      ∀ a' : Word, (∀ i, i < m.toNat → a'.getLsbD i = a.getLsbD i) → exec (.create m g a') s = .next t) ∧
  rev 4 0x1 = 0x8 ∧ rev 4 0xB = 0xD ∧ rev 4 0x6 = 0x6 ∧ rev 3 0xF9 = 0x4

/-- 40_construction.md R83: CREATE_GENPOLY derives `m = t - 1` from the number `t` of bits of `g` and builds the instance with the
canonical initial state; `g` in 0, 1 is degenerate and `g` in 2, 3 gives a length out of range. -/
def Obligations.CreateGenpolyEffect : Prop :=
  (∀ g a1 a2 : Word, decode ⟨0x1, g, a1, a2⟩ = .ok (.createGenpoly g)) ∧
  ∀ (g : Word) (s : State),
    (g.toNat ≤ 1 → exec (.createGenpoly g) s =
      .next { s with responses := s.responses ++ [⟨.configError, .polyDegenerate, 0⟩] }) ∧
    (g.toNat = 2 ∨ g.toNat = 3 → exec (.createGenpoly g) s =
      .next { s with responses := s.responses ++ [⟨.configError, .lengthRange, 0⟩] }) ∧
    ∀ m : Nat, 2 ≤ m → 2 ^ m ≤ g.toNat → g.toNat < 2 ^ (m + 1) →
      exec (.createGenpoly g) s = .next
        { s with
          valid := true, m := BitVec.ofNat 32 m, g := g >>> 1, a := BitVec.ofNat 32 (2 ^ (m - 1)),
          n := BitVec.ofNat 32 (2 ^ m - 1), v := BitVec.ofNat 32 (2 ^ (m - 1)), b := false,
          responses := s.responses ++ [⟨.ok, .none, 0⟩] }

/-- 40_construction.md R84: CREATE_DEFAULT copies the table row verbatim when `2 ≤ m ≤ 15`, and otherwise answers DEFAULT_RANGE
and writes none. -/
def Obligations.CreateDefaultEffect : Prop :=
  (∀ m a1 a2 : Word, decode ⟨0x2, m, a1, a2⟩ = .ok (.createDefault m)) ∧
  ∀ (m : Word) (s : State),
    (2 ≤ m.toNat ∧ m.toNat ≤ 15 →
      exec (.createDefault m) s = .next
        { s with
          valid := true, m := (tableRead m.toNat).m, g := (tableRead m.toNat).g, a := (tableRead m.toNat).a,
          n := (tableRead m.toNat).n, v := (tableRead m.toNat).v, b := (tableRead m.toNat).b,
          responses := s.responses ++ [⟨.ok, .none, 0⟩] }) ∧
    (¬(2 ≤ m.toNat ∧ m.toNat ≤ 15) →
      exec (.createDefault m) s = .next { s with responses := s.responses ++ [⟨.configError, .defaultRange, 0⟩] })

/-- 10_state.md R23, R30: the form of the default table's rows. That `g` of a row but m = 2 is a stored form of `m` bits is the
model's reading of R23 (assumption log 5). -/
def Obligations.DefaultTableForm : Prop :=
  tableRead 2 = ⟨2, 0x3, 0x2, 3, 0x2, false⟩ ∧
  ∀ m : Nat, 2 ≤ m → m ≤ 15 →
    (tableRead m).m.toNat = m ∧ (tableRead m).n.toNat = 2 ^ m - 1 ∧ (tableRead m).a.toNat = 2 ^ (m - 1) ∧
      (tableRead m).v = (tableRead m).a ∧ (tableRead m).b = false ∧ (tableRead m).g.toNat < 2 ^ m ∧
      (tableRead m).g.getLsbD (m - 1) = true

/-- 40_construction.md R85: a construction command always completes, and either writes all seven registers with values that do not
depend on the state it found, or writes none. -/
def Obligations.ConstructionIsAllOrNothing : Prop :=
  ∀ (i : Instr) (s : State), i.isConstruction = true →
    (∃ row : InstanceRow, ∀ s' : State, exec i s' = .next
        { s' with
          valid := true, m := row.m, g := row.g, a := row.a, n := row.n, v := row.v, b := row.b,
          responses := s'.responses ++ [⟨.ok, .none, 0⟩] }) ∨
    ∃ reason, reason ≠ .none ∧
      exec i s = .next { s with responses := s.responses ++ [⟨.configError, reason, 0⟩] }

/-- 40_construction.md R87: CREATE_DEFAULT leaves what CREATE leaves for the row's polynomial in conventional form
(that the row's polynomial fits in `m` bits is the model's reading, assumption log 5). -/
def Obligations.CreateDefaultMatchesCreate : Prop :=
  ∀ (m : Word) (s : State), 2 ≤ m.toNat → m.toNat ≤ 15 →
    exec (.createDefault m) s = exec (.create m (((tableRead m.toNat).g <<< 1) ||| 1) 1) s

/-- 40_construction.md R88: CREATE_GENPOLY leaves what CREATE leaves for the derived length. -/
def Obligations.CreateGenpolyMatchesCreate : Prop :=
  ∀ (g : Word) (s : State), 3 ≤ bitlen g →
    exec (.createGenpoly g) s = exec (.create (BitVec.ofNat 32 (bitlen g - 1)) g 1) s

/-- 40_construction.md R86: DESTROY clears `VALID` and leaves every other register's bits. -/
def Obligations.DestroyEffect : Prop :=
  (∀ a0 a1 a2 : Word, decode ⟨0x3, a0, a1, a2⟩ = .ok .destroy) ∧
  ∀ s : State,
    (s.valid = true →
      exec .destroy s = .next { s with valid := false, responses := s.responses ++ [⟨.ok, .none, 0⟩] }) ∧
    (s.valid = false →
      exec .destroy s = .next { s with responses := s.responses ++ [⟨.noInstance, .none, 0⟩] })

/-! ### Advancement -/

/-- 41_advancement.md R100, R101: ADVANCE writes `B` with the sum modulo 2 of the bits of `V & G` over all 32 bits, shifts it into
`V` at bit 0 under the mask `N`, and returns it. -/
def Obligations.AdvanceEffect : Prop :=
  (∀ a0 a1 a2 : Word, decode ⟨0x4, a0, a1, a2⟩ = .ok .advance) ∧
  ∀ s : State,
    (s.valid = true → ∀ b : Bit,
      b = decide (((List.range 32).countP fun i => s.v.getLsbD i && s.g.getLsbD i) % 2 = 1) →
      exec .advance s = .next
        { s with
          b := b, v := ((s.v <<< 1) ||| (if b then 1 else 0)) &&& s.n,
          responses := s.responses ++ [⟨.ok, .none, if b then 1 else 0⟩] }) ∧
    (s.valid = false →
      exec .advance s = .next { s with responses := s.responses ++ [⟨.noInstance, .none, 0⟩] })

/-- 41_advancement.md R100, 10_state.md R26: after every ADVANCE, even from a register SET_STATE left above the period, `V ≤ N`, bit 0
of `V` is `B`, and every other bit of the register is the one that stood below it. -/
def Obligations.AdvanceShiftsTowardTheTop : Prop :=
  ∀ s : State, s.Inv → s.valid = true →
    ∃ t, exec .advance s = .next t ∧ t.v.toNat ≤ t.n.toNat ∧ t.v.getLsbD 0 = t.b ∧
      (∀ j, j + 1 < s.m.toNat → t.v.getLsbD (j + 1) = s.v.getLsbD j) ∧
      ∀ j, s.m.toNat ≤ j → t.v.getLsbD j = false

/-- 41_advancement.md R104: GENSYM advances `k` times for every `k`, and its RESULT holds the bits produced, most significant
first: the last one at bit 0, the one before at bit 1, and so on for 32 bits. -/
def Obligations.GensymEffect : Prop :=
  (∀ k a1 a2 : Word, decode ⟨0x5, k, a1, a2⟩ = .ok (.gensym k)) ∧
  ∀ (k : Word) (s : State),
    (s.valid = true → ∃ sym : Word,
      exec (.gensym k) s = .next
        { s with
          v := registerAfter s.g s.n k.toNat s.v, b := (outputBits s.g s.n k.toNat s.v).getLastD s.b,
          responses := s.responses ++ [⟨.ok, .none, sym⟩] } ∧
      ∀ i, i < 32 → sym.getLsbD i =
        (decide (i < k.toNat) && (outputBits s.g s.n k.toNat s.v).getD (k.toNat - 1 - i) false)) ∧
    (s.valid = false →
      exec (.gensym k) s = .next { s with responses := s.responses ++ [⟨.noInstance, .none, 0⟩] })

/-- 41_advancement.md R105: GENSYM `k` leaves the same registers as `k` ADVANCE commands in a row, and its RESULT is the integer
formed from their results, most significant first, taken mod 2^32. -/
def Obligations.GensymEqualsRepeatedAdvance : Prop :=
  ∀ (k : Word) (s : State), s.valid = true →
    ∃ (bits : List Bit) (v' : Word) (b' : Bit), bits.length = k.toNat ∧
      execAll (List.replicate k.toNat .advance) s = .next
        { s with
          v := v', b := b',
          responses := s.responses ++ bits.map fun b => ⟨.ok, .none, if b then 1 else 0⟩ } ∧
      exec (.gensym k) s = .next
        { s with
          v := v', b := b',
          responses := s.responses ++ [⟨.ok, .none, BitVec.ofNat 32 (bits.foldl (fun x b => 2 * x + b.toNat) 0)⟩] }

/-- 41_advancement.md R106: from the state CREATE_DEFAULT `m` leaves, `2^m - 1` ADVANCE commands bring `V` back, and their results
hold `2^(m-1)` ones and `2^(m-1) - 1` zeros, for every default table the spec allows (assumption log 5). -/
def Obligations.DefaultRowsHavePeriodAndBalance : Prop :=
  ∀ (m : Word) (s : State), 2 ≤ m.toNat → m.toNat ≤ 15 →
    ∃ (t : State) (bits : List Bit) (b' : Bit), exec (.createDefault m) s = .next t ∧
      execAll (List.replicate (2 ^ m.toNat - 1) .advance) t = .next
        { t with b := b', responses := t.responses ++ bits.map fun b => ⟨.ok, .none, if b then 1 else 0⟩ } ∧
      bits.count true = 2 ^ (m.toNat - 1) ∧ bits.count false = 2 ^ (m.toNat - 1) - 1

/-- 41_advancement.md R107: zero is a fixed point for every polynomial. Until RESET, SET_STATE or a construction changes `V` (or
DESTROY ends the instance), the register stays 0 and every ADVANCE returns 0. -/
def Obligations.ZeroRegisterStaysZero : Prop :=
  ∀ (s : State) (is : List Instr), s.valid = true → s.v = 0 →
    (∀ i ∈ is, i.isConstruction = false ∧ i ≠ .destroy ∧ i ≠ .reset ∧ ∀ x, i ≠ .setState x) →
    ∃ t, execAll is s = .next t ∧ t.v = 0 ∧
      exec .advance t = .next { t with b := false, responses := t.responses ++ [⟨.ok, .none, 0⟩] }

/-- 41_advancement.md R108: on masked registers the fixed points of ADVANCE are 0 and, when the low `M` bits of `G` have odd weight,
all ones; with even weight all ones moves to `N - 1`. -/
def Obligations.FixedPointsOfAdvance : Prop :=
  ∀ s : State, s.Inv → s.Masked → s.valid = true →
    ∃ t, exec .advance s = .next t ∧
      (t.v = s.v ↔ s.v = 0 ∨ (s.v = s.n ∧ ((List.range s.m.toNat).countP s.g.getLsbD) % 2 = 1)) ∧
      (s.v = s.n → ((List.range s.m.toNat).countP s.g.getLsbD) % 2 = 0 → t.v = s.n - 1)

/-- 41_advancement.md R109: after `k` ADVANCE commands from a masked register, bit `j` of the register is the result of `j` steps
ago or, before that, the initial bit it was shifted from; and each result is the XOR, over the taps `j < M` of `G`, of such a
bit, which from result number `M + 1` on is the recurrence over the results alone. -/
def Obligations.OutputObeysLinearRecurrence : Prop :=
  ∀ (s : State) (k : Nat), s.Inv → s.Masked → s.valid = true →
    ∃ (bits : List Bit) (t : State), bits.length = k ∧ execAll (List.replicate k .advance) s = .next t ∧
      (t.responses = s.responses ++ bits.map fun b => ⟨.ok, .none, if b then 1 else 0⟩) ∧
      (∀ j, j < s.m.toNat → t.v.getLsbD j = if j < k then bits.getD (k - 1 - j) false else s.v.getLsbD (j - k)) ∧
      (∀ u, u < k → bits.getD u false = decide (((List.range s.m.toNat).countP fun j =>
        s.g.getLsbD j && if j < u then bits.getD (u - 1 - j) false else s.v.getLsbD (j - u)) % 2 = 1)) ∧
      ∀ u, s.m.toNat ≤ u → u < k → bits.getD u false = decide (((List.range s.m.toNat).countP fun j =>
        s.g.getLsbD j && bits.getD (u - 1 - j) false) % 2 = 1)

/-- 41_advancement.md R102: while `V ≤ N`, bits of `G` at `M` and above have no effect on the output or the register. -/
def Obligations.HighTapsAreHiddenWhileMasked : Prop :=
  ∀ (s : State) (g' : Word), s.Inv → s.Masked → s.valid = true → g' &&& s.n = s.g &&& s.n →
    ∃ t, exec .advance s = .next t ∧ exec .advance { s with g := g' } = .next { t with g := g' }

/-! ### Reset and state access -/

/-- 42_state_access.md R120: RESET writes `V` with `A` and nothing else. -/
def Obligations.ResetEffect : Prop :=
  (∀ a0 a1 a2 : Word, decode ⟨0x6, a0, a1, a2⟩ = .ok .reset) ∧
  ∀ s : State,
    (s.valid = true → exec .reset s = .next { s with v := s.a, responses := s.responses ++ [⟨.ok, .none, 0⟩] }) ∧
    (s.valid = false → exec .reset s = .next { s with responses := s.responses ++ [⟨.noInstance, .none, 0⟩] })

/-- 42_state_access.md R121: after a successful construction and any commands that neither construct nor destroy, RESET and `k`
ADVANCE commands give the results that `k` ADVANCE commands give directly after the construction. -/
def Obligations.ResetReproducesTheSequence : Prop :=
  ∀ (i : Instr) (is : List Instr) (s t u : State) (k : Nat), i.isConstruction = true →
    exec i s = .next t → t.responses = s.responses ++ [⟨.ok, .none, 0⟩] →
    (∀ j ∈ is, j.isConstruction = false ∧ j ≠ .destroy) → execAll is t = .next u →
    ∃ (bits : List Bit) (t' u' : State), bits.length = k ∧
      execAll (List.replicate k .advance) t = .next t' ∧
      (t'.responses = t.responses ++ bits.map fun b => ⟨.ok, .none, if b then 1 else 0⟩) ∧
      execAll (.reset :: List.replicate k .advance) u = .next u' ∧
      (u'.responses = u.responses ++ ⟨.ok, .none, 0⟩ :: bits.map fun b => ⟨.ok, .none, if b then 1 else 0⟩) ∧
      u'.v = t'.v

/-- 42_state_access.md R122 to R125: each accessor returns its register and writes nothing. -/
def Obligations.AccessorsReturnTheirRegister : Prop :=
  (∀ a0 a1 a2 : Word,
    decode ⟨0x7, a0, a1, a2⟩ = .ok .getM ∧ decode ⟨0x8, a0, a1, a2⟩ = .ok .getG ∧
    decode ⟨0x9, a0, a1, a2⟩ = .ok .getN ∧ decode ⟨0xA, a0, a1, a2⟩ = .ok .getV) ∧
  ∀ s : State,
    (s.valid = true →
      exec .getM s = .next { s with responses := s.responses ++ [⟨.ok, .none, s.m⟩] } ∧
      exec .getG s = .next { s with responses := s.responses ++ [⟨.ok, .none, s.g⟩] } ∧
      exec .getN s = .next { s with responses := s.responses ++ [⟨.ok, .none, s.n⟩] } ∧
      exec .getV s = .next { s with responses := s.responses ++ [⟨.ok, .none, s.v⟩] }) ∧
    (s.valid = false → ∀ i : Instr, i = .getM ∨ i = .getG ∨ i = .getN ∨ i = .getV →
      exec i s = .next { s with responses := s.responses ++ [⟨.noInstance, .none, 0⟩] })

/-- 42_state_access.md R127: SET_STATE writes `V` with the operand as given, unmasked, and nothing else. -/
def Obligations.SetStateEffect : Prop :=
  (∀ x a1 a2 : Word, decode ⟨0xB, x, a1, a2⟩ = .ok (.setState x)) ∧
  ∀ (x : Word) (s : State),
    (s.valid = true →
      exec (.setState x) s = .next { s with v := x, responses := s.responses ++ [⟨.ok, .none, 0⟩] }) ∧
    (s.valid = false →
      exec (.setState x) s = .next { s with responses := s.responses ++ [⟨.noInstance, .none, 0⟩] })

/-! ### The buffer bridge and the diagnostic -/

/-- 43_bridge_and_diagnostic.md R140: FILL emits one Clear and then exactly `N` pushes, the next `N` output bits in order, and
leaves `V` and `B` as after `N` steps. Without an instance it emits nothing. -/
def Obligations.FillEffect : Prop :=
  (∀ a0 a1 a2 : Word, decode ⟨0xC, a0, a1, a2⟩ = .ok .fill) ∧
  ∀ s : State,
    (s.valid = true →
      exec .fill s = .next
        { s with
          v := registerAfter s.g s.n s.n.toNat s.v, b := (outputBits s.g s.n s.n.toNat s.v).getLastD s.b,
          bufEvents := s.bufEvents ++ .clear :: (outputBits s.g s.n s.n.toNat s.v).map .push,
          responses := s.responses ++ [⟨.ok, .none, 0⟩] } ∧
      (outputBits s.g s.n s.n.toNat s.v).length = s.n.toNat) ∧
    (s.valid = false → exec .fill s = .next { s with responses := s.responses ++ [⟨.noInstance, .none, 0⟩] })

/-- 43_bridge_and_diagnostic.md R142, 41_advancement.md R106: with any polynomial of full period, for every length 2 to 31, FILL
from any register `0 < V ≤ N` leaves `V` as it was and pushes `2^(M-1)` ones and `2^(M-1) - 1` zeros; and the polynomial of
every default-table row has full period (assumption log 5). That a primitive polynomial is one of full period is the reading
of R142 here; nothing is asked of the bits of `G` at `M` and above. -/
def Obligations.FillPushesOneWholePeriod : Prop :=
  (∀ s : State, s.valid = true → 2 ≤ s.m.toNat → s.m.toNat ≤ 31 → s.n.toNat = 2 ^ s.m.toNat - 1 →
    HasFullPeriod s.m.toNat s.g → 0 < s.v.toNat → s.v.toNat ≤ s.n.toNat →
    ∃ (bits : List Bit) (b' : Bit),
      exec .fill s = .next
        { s with
          b := b', bufEvents := s.bufEvents ++ .clear :: bits.map .push,
          responses := s.responses ++ [⟨.ok, .none, 0⟩] } ∧
      bits.count true = 2 ^ (s.m.toNat - 1) ∧ bits.count false = 2 ^ (s.m.toNat - 1) - 1) ∧
  ∀ m : Nat, 2 ≤ m → m ≤ 15 → HasFullPeriod m (tableRead m).g

/-- 43_bridge_and_diagnostic.md R143: PRINT emits one diagnostic event carrying `(M, N, V, G)` and changes no register. -/
def Obligations.PrintEffect : Prop :=
  (∀ a0 a1 a2 : Word, decode ⟨0xD, a0, a1, a2⟩ = .ok .print) ∧
  ∀ s : State,
    (s.valid = true →
      exec .print s = .next
        { s with
          diagEvents := s.diagEvents ++ [⟨s.m, s.n, s.v, s.g⟩], responses := s.responses ++ [⟨.ok, .none, 0⟩] }) ∧
    (s.valid = false → exec .print s = .next { s with responses := s.responses ++ [⟨.noInstance, .none, 0⟩] })

/-- 43_bridge_and_diagnostic.md R141, 20_memory.md R48: FILL is the only command that reaches the bit-buffer port and PRINT the
only one that reaches the diagnostic port; no event already emitted is taken back. -/
def Obligations.OnlyFillAndPrintEmitEvents : Prop :=
  ∀ (i : Instr) (s t : State), exec i s = .next t →
    (i ≠ .fill → t.bufEvents = s.bufEvents) ∧ (i ≠ .print → t.diagEvents = s.diagEvents) ∧
      s.bufEvents <+: t.bufEvents ∧ s.diagEvents <+: t.diagEvents ∧ t.pending = s.pending

/-! ### Rules over all commands -/

/-- 60_exceptions.md R153: every command but the three CREATE commands, while `VALID = 0`, answers NO_INSTANCE, changes no register,
emits no event, and is recorded as a fault. -/
def Obligations.NoInstanceIsRejected : Prop :=
  ∀ (i : Instr) (s : State), i.isConstruction = false → s.valid = false →
    ∃ t, exec i s = .next t ∧
      t = { s with responses := s.responses ++ [⟨.noInstance, .none, 0⟩] } ∧
      t.recordedFaults = s.recordedFaults ++ [.noInstance]

/-- 60_exceptions.md R152: no command but the three CREATE commands answers CONFIG_ERROR, and with an instance every such command
completes with STATUS = OK, whatever its operand and the polynomial are. -/
def Obligations.OnlyConstructionCanFail : Prop :=
  ∀ (i : Instr) (s : State), i.isConstruction = false →
    ∃ t r, exec i s = .next t ∧ t.responses = s.responses ++ [r] ∧
      r.status ≠ .configError ∧ r.reason = .none ∧ (s.valid = true → r.status = .ok)

/-- 10_state.md R22, R28 item 4, R34: no command but a construction writes `M`, `G`, `A` or `N`, and only DESTROY and a construction
write `VALID`. -/
def Obligations.InstanceIsFixedAfterConstruction : Prop :=
  ∀ (i : Instr) (s t : State), i.isConstruction = false → exec i s = .next t →
    t.m = s.m ∧ t.g = s.g ∧ t.a = s.a ∧ t.n = s.n ∧ (i ≠ .destroy → t.valid = s.valid)

/-- 20_memory.md R48: the accessors, PRINT, RESET and SET_STATE are idempotent on the registers. -/
def Obligations.RepeatingLeavesTheSameRegisters : Prop :=
  ∀ (i : Instr) (s : State),
    i = .getM ∨ i = .getG ∨ i = .getN ∨ i = .getV ∨ i = .print ∨ i = .reset ∨ (∃ x, i = .setState x) →
    ∃ t u, exec i s = .next t ∧ exec i t = .next u ∧
      u = { t with responses := u.responses, diagEvents := u.diagEvents }

/-! ### Invariants -/

/-- 10_state.md R28 items 1 and 2: every step keeps `2 ≤ M ≤ 31`, `N = 2^M - 1` and `A ≤ N` while `VALID = 1`. -/
def Obligations.StepKeepsInstanceInvariant : Prop :=
  ∀ s t : State, s.Inv → step s = .next t → t.Inv

/-- 10_state.md R26, R28 item 3: every step but one that runs SET_STATE keeps `V ≤ N` while `VALID = 1`. -/
def Obligations.StepKeepsRegisterMasked : Prop :=
  ∀ s t : State, s.Inv → s.Masked →
    (∀ c rest x, s.pending = c :: rest → decode c ≠ .ok (.setState x)) → step s = .next t → t.Masked

/-- 10_state.md R28: the invariants hold after power-on reset. -/
def Obligations.PowerOnMeetsInvariants : Prop :=
  State.reset.Inv ∧ State.reset.Masked ∧ State.reset.Safe
end

