-- ==== Sys2Proof/Laws/Decode.lean ====
section
/-! SUPPORT. The fields of a command word as numbers, and what the decoder does with them (30_encoding.md R61, R65, R68). -/

namespace Sys2Proof

/-- `RSV = 0` says that the command word is below 16. -/
theorem Command.rsvClear_iff (c : Command) : c.rsvClear = true ↔ c.cmd.toNat < 16 := by
  have h := c.cmd.isLt
  rw [Command.rsvClear, Command.rsv, beq_iff_eq, ← BitVec.toNat_inj, BitVec.extractLsb'_toNat, Nat.shiftRight_eq_div_pow]
  simp
  omega

/-- `OP` is the command word modulo 16. -/
theorem Command.toNat_op (c : Command) : c.op.toNat = c.cmd.toNat % 16 := by
  rw [Command.op, BitVec.extractLsb'_toNat]; rfl

theorem Command.wf_iff (c : Command) : c.wf = true ↔ c.cmd.toNat ≤ 0xD := by
  rw [Command.wf, Bool.and_eq_true, Command.rsvClear_iff, Command.opAssigned, decide_eq_true_iff, Command.toNat_op]
  omega

/-- With the reserved bits clear the operation decides. -/
theorem decode_of_lt {c : Command} (h : c.cmd.toNat < 16) : decode c = decodeOp c := if_pos (c.rsvClear_iff.mpr h)

/-- With a reserved bit set the word is refused. -/
theorem decode_of_ge {c : Command} (h : 16 ≤ c.cmd.toNat) : decode c = .error .reservedBits :=
  if_neg (by rw [c.rsvClear_iff]; omega)

/-- A command's encoding is a legal command word. -/
theorem encode_wf (i : Instr) : (encode i).wf = true := by
  rw [Command.wf_iff]; cases i <;> simp [encode, opcode]

end Sys2Proof
end

