-- ==== Sys2Proof/Laws/Operands.lean ====
section
/-! SUPPORT. What each operand computation gives, bit by bit or as a number. -/

namespace Sys2Proof.Machine

/-! ### `bitWord` and `ones` -/

@[simp] theorem getLsbD_bitWord (b : Bit) (i : Nat) : (bitWord b).getLsbD i = (b && decide (i = 0)) := by
  cases b
  · simp [bitWord]
  · rw [bitWord, if_pos rfl, Bool.true_and]; exact BitVec.getLsbD_one.trans (by simp)

theorem toNat_ones {m : Nat} (h : m < 32) : (ones m).toNat = 2 ^ m - 1 := by
  have h2 : 2 ^ m < 2 ^ 32 := Nat.pow_lt_pow_right (by omega) h
  have h0 : 0 < 2 ^ m := Nat.two_pow_pos m
  have h1 : ((1 : Word) <<< m).toNat = 2 ^ m := by
    simp only [BitVec.toNat_shiftLeft, Nat.shiftLeft_eq]
    show 1 * 2 ^ m % 2 ^ 32 = 2 ^ m
    rw [Nat.one_mul, Nat.mod_eq_of_lt h2]
  rw [ones, BitVec.toNat_sub, h1]
  show (2 ^ 32 - 1 + 2 ^ m) % 2 ^ 32 = 2 ^ m - 1
  omega

theorem getLsbD_ones {m : Nat} (h : m < 32) (i : Nat) : (ones m).getLsbD i = decide (i < m) := by
  rw [← BitVec.testBit_toNat, toNat_ones h, Nat.testBit_two_pow_sub_one]

/-- `x & N` keeps the low bits of `x` (10_state.md R25). -/
theorem toNat_and_ones {m : Nat} (h : m < 32) (x : Word) : (x &&& ones m).toNat = x.toNat % 2 ^ m := by
  rw [BitVec.toNat_and, toNat_ones h, Nat.and_two_pow_sub_one_eq_mod]

/-! ### `rev` -/

theorem getLsbD_rev {m : Nat} (h : m ≤ 32) (x : Word) (j : Nat) :
    (rev m x).getLsbD j = (decide (j < m) && x.getLsbD (m - 1 - j)) := by
  induction m generalizing x with
  | zero => simp [rev]
  | succ m ih =>
    simp only [rev, BitVec.getLsbD_or, BitVec.getLsbD_shiftLeft, getLsbD_bitWord, ih (by omega), BitVec.getLsbD_ushiftRight]
    rcases Nat.lt_trichotomy j m with hj | rfl | hj
    · have e : 1 + (m - 1 - j) = m + 1 - 1 - j := by omega
      simp [hj, Nat.lt_succ_of_lt hj, e]
    · simp; omega
    · have e : j - m ≠ 0 := by omega
      have e2 : ¬ j < m + 1 := by omega
      have e3 : ¬ j < m := by omega
      simp [e, e2, e3]

theorem rev_lt {m : Nat} (h : m ≤ 32) (x : Word) : (rev m x).toNat < 2 ^ m := by
  refine Nat.lt_pow_two_of_testBit _ fun i hi => ?_
  rw [BitVec.testBit_toNat, getLsbD_rev h]
  simp; omega

/-- `rev_m(1) = 1 << (m - 1)` (40_construction.md R83). -/
theorem rev_one {m : Nat} (h : 1 ≤ m) (h2 : m ≤ 32) : rev m 1 = (1 : Word) <<< (m - 1) := by
  refine BitVec.eq_of_getLsbD_eq fun i hi => ?_
  have one (k : Nat) : (1 : Word).getLsbD k = decide (k = 0) := (getLsbD_bitWord true k).trans (Bool.true_and _)
  rw [getLsbD_rev h2, BitVec.getLsbD_shiftLeft, one, one, Bool.eq_iff_iff]
  simp
  omega

/-! ### `popcount` and `parity` -/

/-- The bits of `a` and of `b` counted together are those of `a ^ b` and, twice, those of `a & b`. -/
theorem popcountBelow_add (k : Nat) (a b : Word) :
    popcountBelow k a + popcountBelow k b = popcountBelow k (a ^^^ b) + 2 * popcountBelow k (a &&& b) := by
  induction k with
  | zero => rfl
  | succ k ih =>
    simp only [popcountBelow, BitVec.getLsbD_xor, BitVec.getLsbD_and]
    cases a.getLsbD k <;> cases b.getLsbD k <;> simp <;> omega

/-- Parity is additive: the parity of an XOR is the XOR of the parities. -/
theorem parity_xor (a b : Word) : parity (a ^^^ b) = (parity a ^^ parity b) := by
  have h := popcountBelow_add 32 a b
  simp only [parity, popcount]
  rcases Nat.mod_two_eq_zero_or_one (popcountBelow 32 a) with ha | ha <;>
    rcases Nat.mod_two_eq_zero_or_one (popcountBelow 32 b) with hb | hb
  all_goals
    have hx : popcountBelow 32 (a ^^^ b) % 2 = (popcountBelow 32 a + popcountBelow 32 b) % 2 := by omega
    rw [hx, Nat.add_mod, ha, hb]; rfl

@[simp] theorem parity_zero : parity 0#32 = false := by decide

theorem popcountBelow_congr {k : Nat} {a b : Word} (h : ∀ i < k, a.getLsbD i = b.getLsbD i) :
    popcountBelow k a = popcountBelow k b := by
  induction k with
  | zero => rfl
  | succ k ih => rw [popcountBelow, popcountBelow, ih fun i hi => h i (by omega), h k (by omega)]

/-! ### `bitlen` -/

theorem bitlenBelow_le (k : Nat) (x : Word) : bitlenBelow k x ≤ k := by
  induction k with
  | zero => exact Nat.le_refl 0
  | succ k ih => rw [bitlenBelow]; split <;> omega

theorem bitlen_le (x : Word) : bitlen x ≤ 32 := bitlenBelow_le 32 x

/-- Every set bit below `k` lies below `bitlenBelow k x`. -/
theorem lt_bitlenBelow {k i : Nat} {x : Word} (hi : i < k) (h : x.getLsbD i = true) : i < bitlenBelow k x := by
  induction k with
  | zero => omega
  | succ k ih =>
    rw [bitlenBelow]
    split
    · omega
    · next hk =>
      rcases Nat.lt_succ_iff_lt_or_eq.mp hi with h2 | rfl
      · exact ih h2
      · exact absurd h hk

/-- The bit just below a nonzero `bitlenBelow k x` is set. -/
theorem getLsbD_bitlenBelow {k : Nat} {x : Word} (h : bitlenBelow k x ≠ 0) : x.getLsbD (bitlenBelow k x - 1) = true := by
  induction k with
  | zero => exact absurd rfl h
  | succ k ih =>
    by_cases hk : x.getLsbD k = true
    · rw [bitlenBelow, if_pos hk]; simpa using hk
    · rw [bitlenBelow, if_neg hk] at h ⊢; exact ih h

/-- A word fits its `bitlen`. -/
theorem lt_two_pow_bitlen (x : Word) : x.toNat < 2 ^ bitlen x := by
  refine Nat.lt_pow_two_of_testBit _ fun i hi => ?_
  rw [BitVec.testBit_toNat]
  by_contra hc
  have hc : x.getLsbD i = true := by simpa using hc
  exact absurd (lt_bitlenBelow (k := 32) (BitVec.lt_of_getLsbD hc) hc) (by unfold bitlen at hi; omega)

/-- A word with a nonzero `bitlen` reaches it. -/
theorem two_pow_bitlen_le {x : Word} (h : bitlen x ≠ 0) : 2 ^ (bitlen x - 1) ≤ x.toNat := by
  refine Nat.ge_two_pow_of_testBit ?_
  rw [BitVec.testBit_toNat]; exact getLsbD_bitlenBelow h

/-- `bitlen` is the one length with these bounds (00_scope.md R9). -/
theorem le_bitlen_iff (x : Word) (t : Nat) : t + 1 ≤ bitlen x ↔ 2 ^ t ≤ x.toNat := by
  constructor
  · intro h
    exact (Nat.pow_le_pow_right (by omega) (by omega)).trans (two_pow_bitlen_le (x := x) (by omega))
  · intro h
    by_contra hc
    have := lt_two_pow_bitlen x
    have := Nat.pow_le_pow_right (n := 2) (by omega) (show bitlen x ≤ t by omega)
    omega

/-! ### The range check -/

theorem inRange_iff (lo hi : Nat) (x : Word) : inRange lo hi x = true ↔ lo ≤ x.toNat ∧ x.toNat ≤ hi := by
  simp [inRange]

theorem lengthOk_iff (m : Word) : lengthOk m = true ↔ 2 ≤ m.toNat ∧ m.toNat ≤ 31 := inRange_iff 2 31 m

theorem defaultLengthOk_iff (m : Word) : defaultLengthOk m = true ↔ 2 ≤ m.toNat ∧ m.toNat ≤ 15 := inRange_iff 2 15 m

end Sys2Proof.Machine
end

