-- ==== Sys2Proof/Laws/Sequence.lean ====
section
/-! SUPPORT. What the shift register does in one step and over several (41_advancement.md R100, R104, R109). -/

namespace Sys2Proof.Machine

/-! ### Parity as an XOR of bits -/

/-- The XOR of `f 0 .. f (k-1)`. -/
def xorBelow : Nat → (Nat → Bool) → Bool
  | 0, _ => false
  | k + 1, f => xorBelow k f ^^ f k

theorem xorBelow_congr {k : Nat} {f f' : Nat → Bool} (h : ∀ i < k, f i = f' i) : xorBelow k f = xorBelow k f' := by
  induction k with
  | zero => rfl
  | succ k ih => rw [xorBelow, xorBelow, ih fun i hi => h i (by omega), h k (by omega)]

/-- Terms that are false from `m` on do not count. -/
theorem xorBelow_of_false {m k : Nat} {f : Nat → Bool} (h : ∀ i, m ≤ i → f i = false) (hk : m ≤ k) :
    xorBelow k f = xorBelow m f := by
  induction k with
  | zero => rw [Nat.le_zero.mp hk]
  | succ k ih =>
    rcases Nat.lt_or_ge k m with h2 | h2
    · rw [show k + 1 = m by omega]
    · rw [xorBelow, ih h2, h k h2, Bool.xor_false]

/-- The XOR is true when an odd number of the terms are. -/
theorem xorBelow_eq_countP (k : Nat) (f : Nat → Bool) :
    xorBelow k f = decide ((List.range k).countP f % 2 = 1) := by
  induction k with
  | zero => rfl
  | succ k ih =>
    rw [xorBelow, ih, List.range_succ, List.countP_append, List.countP_singleton]
    rcases Nat.mod_two_eq_zero_or_one ((List.range k).countP f) with h | h <;> cases f k <;> simp [h, Nat.add_mod]

theorem popcountBelow_mod_two (k : Nat) (x : Word) : (popcountBelow k x % 2 == 1) = xorBelow k x.getLsbD := by
  induction k with
  | zero => rfl
  | succ k ih =>
    rw [popcountBelow, xorBelow, ← ih]
    rcases Nat.mod_two_eq_zero_or_one (popcountBelow k x) with h | h <;> cases x.getLsbD k <;> simp [h, Nat.add_mod]

theorem parity_eq_xorBelow (x : Word) : parity x = xorBelow 32 x.getLsbD := popcountBelow_mod_two 32 x

/-- The feedback bit is the XOR of the tapped register bits. -/
theorem feedbackBit_eq_xorBelow (g v : Word) :
    feedbackBit g v = xorBelow 32 fun j => v.getLsbD j && g.getLsbD j := by
  rw [feedbackBit, parity_eq_xorBelow]
  exact xorBelow_congr fun i _ => BitVec.getLsbD_and

/-! ### One step -/

theorem getLsbD_shiftIn (n v : Word) (b : Bit) (i : Nat) :
    (shiftIn n v b).getLsbD i = ((if i = 0 then b else decide (i < 32) && v.getLsbD (i - 1)) && n.getLsbD i) := by
  rw [shiftIn, BitVec.getLsbD_and, BitVec.getLsbD_or, getLsbD_bitWord, BitVec.getLsbD_shiftLeft]
  by_cases h : i = 0
  · subst h; simp
  · simp [h]

/-- After every step the register fits the period's bits (R100). -/
theorem nextRegister_le (g n v : Word) : (nextRegister g n v).toNat ≤ n.toNat := by
  rw [nextRegister, shiftIn, BitVec.toNat_and]; exact Nat.and_le_right

@[simp] theorem feedbackBit_zero (g : Word) : feedbackBit g 0#32 = false := by
  exact (congrArg parity BitVec.zero_and).trans parity_zero

@[simp] theorem nextRegister_zero (g n : Word) : nextRegister g n 0#32 = 0#32 := by
  rw [nextRegister, feedbackBit_zero, shiftIn]; simp [bitWord]

/-! ### Several steps -/

@[simp] theorem registerAfter_zero (g n v : Word) : registerAfter g n 0 v = v := rfl

theorem registerAfter_add (g n : Word) (j k : Nat) (v : Word) :
    registerAfter g n (j + k) v = registerAfter g n k (registerAfter g n j v) := by
  induction j generalizing v with
  | zero => rw [Nat.zero_add]; rfl
  | succ j ih => rw [Nat.succ_add]; exact ih _

theorem registerAfter_succ (g n : Word) (k : Nat) (v : Word) :
    registerAfter g n (k + 1) v = nextRegister g n (registerAfter g n k v) := registerAfter_add g n k 1 v

theorem registerAfter_le {g n v : Word} (h : v.toNat ≤ n.toNat) (k : Nat) :
    (registerAfter g n k v).toNat ≤ n.toNat := by
  cases k with
  | zero => exact h
  | succ k => rw [registerAfter_succ]; exact nextRegister_le ..

@[simp] theorem length_outputBits (g n : Word) (k : Nat) (v : Word) : (outputBits g n k v).length = k := by
  induction k generalizing v with
  | zero => rfl
  | succ k ih => rw [outputBits, List.length_cons, ih]

theorem outputBits_add (g n : Word) (j k : Nat) (v : Word) :
    outputBits g n (j + k) v = outputBits g n j v ++ outputBits g n k (registerAfter g n j v) := by
  induction j generalizing v with
  | zero => rw [Nat.zero_add]; rfl
  | succ j ih => rw [Nat.succ_add]; exact congrArg _ (ih _)

theorem outputBits_succ (g n : Word) (k : Nat) (v : Word) :
    outputBits g n (k + 1) v = outputBits g n k v ++ [feedbackBit g (registerAfter g n k v)] := outputBits_add g n k 1 v

/-- Bit number `t` of the output, counted from 0. -/
theorem getElem_outputBits {g n v : Word} {k t : Nat} (h : t < (outputBits g n k v).length) :
    (outputBits g n k v)[t] = feedbackBit g (registerAfter g n t v) := by
  induction k generalizing v t with
  | zero => exact absurd h (by simp [outputBits])
  | succ k ih =>
    cases t with
    | zero => rfl
    | succ t => exact ih _

theorem registerAfter_of_zero (g n : Word) (k : Nat) : registerAfter g n k 0#32 = 0#32 := by
  induction k with
  | zero => rfl
  | succ k ih => rw [registerAfter, nextRegister_zero, ih]

/-! ### Packing a symbol -/

theorem getLsbD_packBit (x : Word) (b : Bit) {i : Nat} (hi : i < 32) :
    (packBit x b).getLsbD i = if i = 0 then b else x.getLsbD (i - 1) := by
  rw [packBit, BitVec.getLsbD_or, getLsbD_bitWord, BitVec.getLsbD_shiftLeft]
  by_cases h : i = 0
  · subst h; simp
  · simp [h, hi]

/-- A packed symbol holds the last bit at bit 0, the one before at bit 1, and so on (R104). -/
theorem getLsbD_foldl_packBit (bits : List Bit) (x : Word) {i : Nat} (hi : i < 32) :
    (bits.foldl packBit x).getLsbD i =
      if i < bits.length then bits.getD (bits.length - 1 - i) false else x.getLsbD (i - bits.length) := by
  induction bits generalizing x with
  | nil => rfl
  | cons b bits ih =>
    rw [List.foldl_cons, ih, List.length_cons]
    by_cases h : i < bits.length
    · rw [if_pos h, if_pos (by omega), show bits.length + 1 - 1 - i = (bits.length - 1 - i) + 1 by omega]; rfl
    · rw [if_neg h, getLsbD_packBit _ _ (by omega)]
      by_cases h2 : i = bits.length
      · subst h2; simp
      · rw [if_neg (by omega), if_neg (by omega)]; congr 1

/-- As a number, packing one more bit doubles the symbol and adds the bit, mod 2^32. -/
theorem packBit_ofNat (y : Nat) (b : Bit) : packBit (BitVec.ofNat 32 y) b = BitVec.ofNat 32 (2 * y + b.toNat) := by
  refine BitVec.eq_of_getLsbD_eq fun i hi => ?_
  rw [getLsbD_packBit _ _ hi, BitVec.getLsbD_ofNat, BitVec.getLsbD_ofNat, decide_eq_true hi, Bool.true_and]
  cases i with
  | zero => cases b <;> simp [Nat.testBit_zero, Nat.add_mod]
  | succ i =>
    rw [Nat.testBit_succ, if_neg (by omega), decide_eq_true (by omega), Bool.true_and, Nat.add_sub_cancel,
      show (2 * y + b.toNat) / 2 = y by cases b <;> (simp; try omega)]

end Sys2Proof.Machine
end

