-- ==== Sys2Proof/Laws/State.lean ====
section
/-! SUPPORT. What each register write and port output does to each field of the state: one lemma per field per update. -/

namespace Sys2Proof.Machine

variable (s : State)

/-! ### `State.setValid` -/

@[simp] theorem State.setValid_valid (x : Bit) : (s.setValid x).valid = x := rfl
@[simp] theorem State.setValid_m (x : Bit) : (s.setValid x).m = s.m := rfl
@[simp] theorem State.setValid_g (x : Bit) : (s.setValid x).g = s.g := rfl
@[simp] theorem State.setValid_a (x : Bit) : (s.setValid x).a = s.a := rfl
@[simp] theorem State.setValid_n (x : Bit) : (s.setValid x).n = s.n := rfl
@[simp] theorem State.setValid_v (x : Bit) : (s.setValid x).v = s.v := rfl
@[simp] theorem State.setValid_b (x : Bit) : (s.setValid x).b = s.b := rfl
@[simp] theorem State.setValid_pending (x : Bit) : (s.setValid x).pending = s.pending := rfl
@[simp] theorem State.setValid_responses (x : Bit) : (s.setValid x).responses = s.responses := rfl
@[simp] theorem State.setValid_bufEvents (x : Bit) : (s.setValid x).bufEvents = s.bufEvents := rfl
@[simp] theorem State.setValid_diagEvents (x : Bit) : (s.setValid x).diagEvents = s.diagEvents := rfl

/-! ### `State.setV` -/

@[simp] theorem State.setV_valid (x : Word) : (s.setV x).valid = s.valid := rfl
@[simp] theorem State.setV_m (x : Word) : (s.setV x).m = s.m := rfl
@[simp] theorem State.setV_g (x : Word) : (s.setV x).g = s.g := rfl
@[simp] theorem State.setV_a (x : Word) : (s.setV x).a = s.a := rfl
@[simp] theorem State.setV_n (x : Word) : (s.setV x).n = s.n := rfl
@[simp] theorem State.setV_v (x : Word) : (s.setV x).v = x := rfl
@[simp] theorem State.setV_b (x : Word) : (s.setV x).b = s.b := rfl
@[simp] theorem State.setV_pending (x : Word) : (s.setV x).pending = s.pending := rfl
@[simp] theorem State.setV_responses (x : Word) : (s.setV x).responses = s.responses := rfl
@[simp] theorem State.setV_bufEvents (x : Word) : (s.setV x).bufEvents = s.bufEvents := rfl
@[simp] theorem State.setV_diagEvents (x : Word) : (s.setV x).diagEvents = s.diagEvents := rfl

/-! ### `State.setB` -/

@[simp] theorem State.setB_valid (x : Bit) : (s.setB x).valid = s.valid := rfl
@[simp] theorem State.setB_m (x : Bit) : (s.setB x).m = s.m := rfl
@[simp] theorem State.setB_g (x : Bit) : (s.setB x).g = s.g := rfl
@[simp] theorem State.setB_a (x : Bit) : (s.setB x).a = s.a := rfl
@[simp] theorem State.setB_n (x : Bit) : (s.setB x).n = s.n := rfl
@[simp] theorem State.setB_v (x : Bit) : (s.setB x).v = s.v := rfl
@[simp] theorem State.setB_b (x : Bit) : (s.setB x).b = x := rfl
@[simp] theorem State.setB_pending (x : Bit) : (s.setB x).pending = s.pending := rfl
@[simp] theorem State.setB_responses (x : Bit) : (s.setB x).responses = s.responses := rfl
@[simp] theorem State.setB_bufEvents (x : Bit) : (s.setB x).bufEvents = s.bufEvents := rfl
@[simp] theorem State.setB_diagEvents (x : Bit) : (s.setB x).diagEvents = s.diagEvents := rfl

/-! ### `State.construct` -/

@[simp] theorem State.construct_valid (x : InstanceRow) : (s.construct x).valid = true := rfl
@[simp] theorem State.construct_m (x : InstanceRow) : (s.construct x).m = x.m := rfl
@[simp] theorem State.construct_g (x : InstanceRow) : (s.construct x).g = x.g := rfl
@[simp] theorem State.construct_a (x : InstanceRow) : (s.construct x).a = x.a := rfl
@[simp] theorem State.construct_n (x : InstanceRow) : (s.construct x).n = x.n := rfl
@[simp] theorem State.construct_v (x : InstanceRow) : (s.construct x).v = x.v := rfl
@[simp] theorem State.construct_b (x : InstanceRow) : (s.construct x).b = x.b := rfl
@[simp] theorem State.construct_pending (x : InstanceRow) : (s.construct x).pending = s.pending := rfl
@[simp] theorem State.construct_responses (x : InstanceRow) : (s.construct x).responses = s.responses := rfl
@[simp] theorem State.construct_bufEvents (x : InstanceRow) : (s.construct x).bufEvents = s.bufEvents := rfl
@[simp] theorem State.construct_diagEvents (x : InstanceRow) : (s.construct x).diagEvents = s.diagEvents := rfl

/-! ### `State.addResponse` -/

@[simp] theorem State.addResponse_valid (x : Response) : (s.addResponse x).valid = s.valid := rfl
@[simp] theorem State.addResponse_m (x : Response) : (s.addResponse x).m = s.m := rfl
@[simp] theorem State.addResponse_g (x : Response) : (s.addResponse x).g = s.g := rfl
@[simp] theorem State.addResponse_a (x : Response) : (s.addResponse x).a = s.a := rfl
@[simp] theorem State.addResponse_n (x : Response) : (s.addResponse x).n = s.n := rfl
@[simp] theorem State.addResponse_v (x : Response) : (s.addResponse x).v = s.v := rfl
@[simp] theorem State.addResponse_b (x : Response) : (s.addResponse x).b = s.b := rfl
@[simp] theorem State.addResponse_pending (x : Response) : (s.addResponse x).pending = s.pending := rfl
@[simp] theorem State.addResponse_responses (x : Response) : (s.addResponse x).responses = s.responses ++ [x] := rfl
@[simp] theorem State.addResponse_bufEvents (x : Response) : (s.addResponse x).bufEvents = s.bufEvents := rfl
@[simp] theorem State.addResponse_diagEvents (x : Response) : (s.addResponse x).diagEvents = s.diagEvents := rfl

/-! ### `State.emitBuf` -/

@[simp] theorem State.emitBuf_valid (x : BufEvent) : (s.emitBuf x).valid = s.valid := rfl
@[simp] theorem State.emitBuf_m (x : BufEvent) : (s.emitBuf x).m = s.m := rfl
@[simp] theorem State.emitBuf_g (x : BufEvent) : (s.emitBuf x).g = s.g := rfl
@[simp] theorem State.emitBuf_a (x : BufEvent) : (s.emitBuf x).a = s.a := rfl
@[simp] theorem State.emitBuf_n (x : BufEvent) : (s.emitBuf x).n = s.n := rfl
@[simp] theorem State.emitBuf_v (x : BufEvent) : (s.emitBuf x).v = s.v := rfl
@[simp] theorem State.emitBuf_b (x : BufEvent) : (s.emitBuf x).b = s.b := rfl
@[simp] theorem State.emitBuf_pending (x : BufEvent) : (s.emitBuf x).pending = s.pending := rfl
@[simp] theorem State.emitBuf_responses (x : BufEvent) : (s.emitBuf x).responses = s.responses := rfl
@[simp] theorem State.emitBuf_bufEvents (x : BufEvent) : (s.emitBuf x).bufEvents = s.bufEvents ++ [x] := rfl
@[simp] theorem State.emitBuf_diagEvents (x : BufEvent) : (s.emitBuf x).diagEvents = s.diagEvents := rfl

/-! ### `State.emitPrint` -/

@[simp] theorem State.emitPrint_valid (x : DiagEvent) : (s.emitPrint x).valid = s.valid := rfl
@[simp] theorem State.emitPrint_m (x : DiagEvent) : (s.emitPrint x).m = s.m := rfl
@[simp] theorem State.emitPrint_g (x : DiagEvent) : (s.emitPrint x).g = s.g := rfl
@[simp] theorem State.emitPrint_a (x : DiagEvent) : (s.emitPrint x).a = s.a := rfl
@[simp] theorem State.emitPrint_n (x : DiagEvent) : (s.emitPrint x).n = s.n := rfl
@[simp] theorem State.emitPrint_v (x : DiagEvent) : (s.emitPrint x).v = s.v := rfl
@[simp] theorem State.emitPrint_b (x : DiagEvent) : (s.emitPrint x).b = s.b := rfl
@[simp] theorem State.emitPrint_pending (x : DiagEvent) : (s.emitPrint x).pending = s.pending := rfl
@[simp] theorem State.emitPrint_responses (x : DiagEvent) : (s.emitPrint x).responses = s.responses := rfl
@[simp] theorem State.emitPrint_bufEvents (x : DiagEvent) : (s.emitPrint x).bufEvents = s.bufEvents := rfl
@[simp] theorem State.emitPrint_diagEvents (x : DiagEvent) : (s.emitPrint x).diagEvents = s.diagEvents ++ [x] := rfl

/-! ### `State.submit` -/

@[simp] theorem State.submit_valid (x : Command) : (s.submit x).valid = s.valid := rfl
@[simp] theorem State.submit_m (x : Command) : (s.submit x).m = s.m := rfl
@[simp] theorem State.submit_g (x : Command) : (s.submit x).g = s.g := rfl
@[simp] theorem State.submit_a (x : Command) : (s.submit x).a = s.a := rfl
@[simp] theorem State.submit_n (x : Command) : (s.submit x).n = s.n := rfl
@[simp] theorem State.submit_v (x : Command) : (s.submit x).v = s.v := rfl
@[simp] theorem State.submit_b (x : Command) : (s.submit x).b = s.b := rfl
@[simp] theorem State.submit_pending (x : Command) : (s.submit x).pending = s.pending ++ [x] := rfl
@[simp] theorem State.submit_responses (x : Command) : (s.submit x).responses = s.responses := rfl
@[simp] theorem State.submit_bufEvents (x : Command) : (s.submit x).bufEvents = s.bufEvents := rfl
@[simp] theorem State.submit_diagEvents (x : Command) : (s.submit x).diagEvents = s.diagEvents := rfl

/-! ### `State.present` -/

@[simp] theorem State.present_valid (x : Command) : (s.present x).valid = s.valid := rfl
@[simp] theorem State.present_m (x : Command) : (s.present x).m = s.m := rfl
@[simp] theorem State.present_g (x : Command) : (s.present x).g = s.g := rfl
@[simp] theorem State.present_a (x : Command) : (s.present x).a = s.a := rfl
@[simp] theorem State.present_n (x : Command) : (s.present x).n = s.n := rfl
@[simp] theorem State.present_v (x : Command) : (s.present x).v = s.v := rfl
@[simp] theorem State.present_b (x : Command) : (s.present x).b = s.b := rfl
@[simp] theorem State.present_pending (x : Command) : (s.present x).pending = x :: s.pending := rfl
@[simp] theorem State.present_responses (x : Command) : (s.present x).responses = s.responses := rfl
@[simp] theorem State.present_bufEvents (x : Command) : (s.present x).bufEvents = s.bufEvents := rfl
@[simp] theorem State.present_diagEvents (x : Command) : (s.present x).diagEvents = s.diagEvents := rfl

end Sys2Proof.Machine
end

