-- ==== Sys2Proof/Laws/Ops.lean ====
section
/-! SUPPORT. For each shared operation, once, everything it can do; the meanings' proofs cite these. -/

namespace Sys2Proof.Machine

/-! ### Ending a command -/

/-- The state a response leaves: one response more, nothing else. -/
theorem respond_eq_next (st : Status) (re : Reason) (x : Word) (s : State) :
    respond st re x s = .next (s.addResponse { status := st, reason := re, result := x }) := rfl

theorem respondOk_eq_next (x : Word) (s : State) :
    respondOk x s = .next (s.addResponse { status := .ok, reason := .none, result := x }) := rfl

theorem raiseConfigurationError_eq_next (re : Reason) (s : State) :
    raiseConfigurationError re s = .next (s.addResponse { status := .configError, reason := re, result := 0 }) := rfl

theorem raiseNoInstance_eq_next (s : State) :
    raiseNoInstance s = .next (s.addResponse { status := .noInstance, reason := .none, result := 0 }) := rfl

theorem raiseIllegalCommand_eq_next (s : State) :
    raiseIllegalCommand s = .next (s.addResponse { status := .illegalCommand, reason := .none, result := 0 }) := rfl

/-! ### The instance check -/

theorem needInstance_of_valid {s : State} (h : s.valid = true) (body : State → Answer) :
    needInstance s body = body s := if_pos h

theorem needInstance_of_not_valid {s : State} (h : s.valid = false) (body : State → Answer) :
    needInstance s body = raiseNoInstance s := by rw [needInstance, h]; rfl

/-! ### `advance()` and its loops -/

theorem advance_fst (s : State) : (advance s).1 = feedbackBit s.g s.v := rfl

/-- `advance()` writes `B` with the bit it returns and `V` with the next register, and nothing else (R100). -/
theorem advance_snd (s : State) :
    (advance s).2 = (s.setB (feedbackBit s.g s.v)).setV (nextRegister s.g s.n s.v) := rfl

/-- `B` after `k` steps: the last bit produced, or the old bit if none was. -/
def lastBit (g n : Word) (k : Nat) (v : Word) (b : Bit) : Bit := (outputBits g n k v).getLastD b

@[simp] theorem lastBit_zero (g n v : Word) (b : Bit) : lastBit g n 0 v b = b := rfl

theorem lastBit_succ (g n v : Word) (k : Nat) (b : Bit) :
    lastBit g n (k + 1) v b = lastBit g n k (nextRegister g n v) (feedbackBit g v) := by
  cases k <;> rfl

/-- GENSYM's loop: the packed bits, with `B` and `V` as after `k` steps (R104). -/
theorem symbolLoop_eq (k : Nat) (sym : Word) (s : State) :
    symbolLoop k sym s =
      ((outputBits s.g s.n k s.v).foldl packBit sym,
        (s.setB (lastBit s.g s.n k s.v s.b)).setV (registerAfter s.g s.n k s.v)) := by
  induction k generalizing sym s with
  | zero => rfl
  | succ k ih => rw [symbolLoop, ih, advance_snd, advance_fst]; simp only [State.setV_g, State.setB_g, State.setV_n, State.setB_n, State.setV_v, State.setV_b, State.setB_b, lastBit_succ]; rfl

/-- FILL's loop: one push per bit in the order produced, with `B` and `V` as after `k` steps (R140). -/
theorem pushLoop_eq (k : Nat) (s : State) :
    pushLoop k s =
      { s with
        bufEvents := s.bufEvents ++ (outputBits s.g s.n k s.v).map .push
        b := lastBit s.g s.n k s.v s.b
        v := registerAfter s.g s.n k s.v } := by
  induction k generalizing s with
  | zero => simp [pushLoop, outputBits]
  | succ k ih =>
    rw [pushLoop, ih, advance_snd, advance_fst, lastBit_succ, outputBits, registerAfter]
    simp [State.emitBuf, State.setV, State.setB]

/-! ### The command port -/

theorem acceptCommand_nil {s : State} (h : s.pending = []) : acceptCommand s = none := by rw [acceptCommand, h]

theorem acceptCommand_cons {s : State} {c : Command} {rest : List Command} (h : s.pending = c :: rest) :
    acceptCommand s = some (c, { s with pending := rest }) := by rw [acceptCommand, h]

@[simp] theorem acceptCommand_present (s : State) (c : Command) : acceptCommand (s.present c) = some (c, s) := rfl

end Sys2Proof.Machine
end

