-- ==== Sys2Proof/Laws/PerInstr.lean ====
section
/-! SUPPORT. What holds of every command as syntax, one lemma per constructor. The family `EncodingLegal`: the command is well
formed, its word is legal, and it puts no more operands than the three ports hold, with 0 on every port it does not use
(30_encoding.md R61, R62, R65, R69). -/

namespace Sys2Proof.Laws.EncodingLegal

open Sys2Proof

/-- The statement of the family for one command. -/
def Statement (i : Instr) : Prop :=
  i.wf = true ∧ (encode i).wf = true ∧ i.operands.length ≤ 3 ∧
    [(encode i).arg0, (encode i).arg1, (encode i).arg2] = i.operands ++ List.replicate (3 - i.operands.length) 0

theorem create (m g a : Word) : Statement (.create m g a) := ⟨rfl, encode_wf _, by simp [Instr.operands], rfl⟩
theorem createGenpoly (g : Word) : Statement (.createGenpoly g) := ⟨rfl, encode_wf _, by simp [Instr.operands], rfl⟩
theorem createDefault (m : Word) : Statement (.createDefault m) := ⟨rfl, encode_wf _, by simp [Instr.operands], rfl⟩
theorem destroy : Statement .destroy := ⟨rfl, encode_wf _, by simp [Instr.operands], rfl⟩
theorem advance : Statement .advance := ⟨rfl, encode_wf _, by simp [Instr.operands], rfl⟩
theorem gensym (k : Word) : Statement (.gensym k) := ⟨rfl, encode_wf _, by simp [Instr.operands], rfl⟩
theorem reset : Statement .reset := ⟨rfl, encode_wf _, by simp [Instr.operands], rfl⟩
theorem getM : Statement .getM := ⟨rfl, encode_wf _, by simp [Instr.operands], rfl⟩
theorem getG : Statement .getG := ⟨rfl, encode_wf _, by simp [Instr.operands], rfl⟩
theorem getN : Statement .getN := ⟨rfl, encode_wf _, by simp [Instr.operands], rfl⟩
theorem getV : Statement .getV := ⟨rfl, encode_wf _, by simp [Instr.operands], rfl⟩
theorem setState (value : Word) : Statement (.setState value) := ⟨rfl, encode_wf _, by simp [Instr.operands], rfl⟩
theorem fill : Statement .fill := ⟨rfl, encode_wf _, by simp [Instr.operands], rfl⟩
theorem print : Statement .print := ⟨rfl, encode_wf _, by simp [Instr.operands], rfl⟩

end Sys2Proof.Laws.EncodingLegal
end

