-- ==== Sys2Proof/Laws/Rom.lean ====
section
/-! SUPPORT. Every row of the default table keeps the limit the spec sets on it (10_state.md R30, 41_advancement.md R106):
the free polynomial by its definition, and the candidates by calculation. The calculation runs no step of the machine: it
checks a whole period at once, as a number whose bits are the register's history, and the lemmas carry it over. At the end,
the limit gives a full period. -/

namespace Sys2Proof.Machine

/-! ### The canonical state -/

theorem toNat_canonicalState {m : Nat} (h : m ≤ 32) : (canonicalState m).toNat = 2 ^ (m - 1) := by
  have h2 : 2 ^ (m - 1) < 2 ^ 32 := Nat.pow_lt_pow_right (by omega) (by omega)
  rw [canonicalState, BitVec.toNat_shiftLeft, Nat.shiftLeft_eq]
  show 1 * 2 ^ (m - 1) % 2 ^ 32 = _
  rw [Nat.one_mul, Nat.mod_eq_of_lt h2]

theorem getLsbD_canonicalState {m : Nat} (h1 : 1 ≤ m) (h : m ≤ 32) (i : Nat) :
    (canonicalState m).getLsbD i = decide (i = m - 1) := by
  have one (k : Nat) : (1 : Word).getLsbD k = decide (k = 0) := (getLsbD_bitWord true k).trans (Bool.true_and _)
  rw [canonicalState, ← rev_one h1 h, getLsbD_rev h, one, Bool.eq_iff_iff]
  simp
  omega

/-! ### A history as a number

Bit `m - 1 + t - j` of a history `H` is bit `j` of the register after `t` steps, so bit `m + t` is output bit `t`. -/

/-- The XOR of `H` shifted up by `j + 1` over the taps `j < k` of `g`. -/
def tappedXor (g H : Nat) : Nat → Nat
  | 0 => 0
  | k + 1 => tappedXor g H k ^^^ (if g.testBit k then H <<< (k + 1) else 0)

/-- The number of set bits of an `x < 2 ^ 2 ^ k`. -/
def countOnes : Nat → Nat → Nat
  | 0, x => x
  | k + 1, x => Nat.add (countOnes k (Nat.mod x (Nat.pow 2 (Nat.pow 2 k)))) (countOnes k (Nat.shiftRight x (Nat.pow 2 k)))

/-- `H` is the history of one whole period: it starts at the canonical state, obeys the recurrence of R109 at every step,
ends at the canonical state again, and holds `2^(m-1)` ones. -/
def isPeriodHistory (m g H : Nat) : Bool :=
  H % 2 ^ m == 1 && ((tappedXor g H m ^^^ H) >>> m) % 2 ^ (2 ^ m - 1) == 0 && H >>> (2 ^ m - 1) == 1 &&
    countOnes m ((H >>> m) % 2 ^ (2 ^ m - 1)) == 2 ^ (m - 1)

theorem testBit_tappedXor (g H k i : Nat) :
    (tappedXor g H k).testBit i = xorBelow k fun j => g.testBit j && (decide (j + 1 ≤ i) && H.testBit (i - (j + 1))) := by
  induction k with
  | zero => simp [tappedXor, xorBelow]
  | succ k ih =>
    rw [tappedXor, xorBelow, Nat.testBit_xor, ih]
    congr 1
    split
    · next h => simp [h, Nat.testBit_shiftLeft]
    · next h => simp [h]

/-- The number of set bits among the lowest `k` bits of `x`. -/
def bitsBelow : Nat → Nat → Nat
  | 0, _ => 0
  | k + 1, x => bitsBelow k x + (x.testBit k).toNat

theorem bitsBelow_congr {k x y : Nat} (h : ∀ i < k, x.testBit i = y.testBit i) : bitsBelow k x = bitsBelow k y := by
  induction k with
  | zero => rfl
  | succ k ih => rw [bitsBelow, bitsBelow, ih fun i hi => h i (by omega), h k (by omega)]

theorem bitsBelow_add (j k x : Nat) : bitsBelow (j + k) x = bitsBelow j x + bitsBelow k (x >>> j) := by
  induction k with
  | zero => rfl
  | succ k ih => rw [← Nat.add_assoc, bitsBelow, ih, bitsBelow, Nat.testBit_shiftRight, Nat.add_assoc]

theorem countOnes_eq {k x : Nat} (h : x < 2 ^ 2 ^ k) : countOnes k x = bitsBelow (2 ^ k) x := by
  induction k generalizing x with
  | zero =>
    have h : x < 2 := by simpa using h
    rcases (by omega : x = 0 ∨ x = 1) with rfl | rfl <;> rfl
  | succ k ih =>
    have e : 2 ^ (k + 1) = 2 ^ k + 2 ^ k := by rw [Nat.pow_succ]; omega
    rw [e, Nat.pow_add] at h
    have h1 : countOnes k (x % 2 ^ 2 ^ k) = bitsBelow (2 ^ k) (x % 2 ^ 2 ^ k) := ih (Nat.mod_lt _ (Nat.two_pow_pos _))
    have h2 : countOnes k (x >>> 2 ^ k) = bitsBelow (2 ^ k) (x >>> 2 ^ k) := by
      refine ih ?_; rw [Nat.shiftRight_eq_div_pow]; exact Nat.div_lt_of_lt_mul h
    have h3 : bitsBelow (2 ^ k) (x % 2 ^ 2 ^ k) = bitsBelow (2 ^ k) x :=
      bitsBelow_congr fun i hi => by rw [Nat.testBit_mod_two_pow, decide_eq_true hi, Bool.true_and]
    rw [e, bitsBelow_add, ← h3, ← h1, ← h2]; rfl

theorem testBit_one (i : Nat) : Nat.testBit 1 i = decide (i = 0) :=
  (Nat.testBit_two_pow (n := 0) (m := i)).trans (decide_eq_decide.mpr eq_comm)

/-! ### The register follows the history -/

section
variable {m : Nat} {g : Word} {H : Nat}

theorem feedbackBit_of_history (hm : m < 32)
    (hrec : ((tappedXor g.toNat H m ^^^ H) >>> m) % 2 ^ (2 ^ m - 1) = 0) {t : Nat} (ht : t < 2 ^ m - 1) {v : Word}
    (hv : ∀ j, v.getLsbD j = (decide (j < m) && H.testBit (m - 1 + t - j))) : feedbackBit g v = H.testBit (m + t) := by
  have h0 : (((tappedXor g.toNat H m ^^^ H) >>> m) % 2 ^ (2 ^ m - 1)).testBit t = false := by rw [hrec]; simp
  rw [Nat.testBit_mod_two_pow, decide_eq_true ht, Bool.true_and, Nat.testBit_shiftRight, Nat.testBit_xor,
    testBit_tappedXor] at h0
  rw [← show _ = H.testBit (m + t) by simpa using h0, feedbackBit_eq_xorBelow,
    xorBelow_of_false (m := m) (fun i hi => by rw [hv, decide_eq_false (by omega)]; rfl) (by omega)]
  refine xorBelow_congr fun j hj => ?_
  rw [hv, decide_eq_true hj, Bool.true_and, Bool.and_comm, BitVec.testBit_toNat, decide_eq_true (by omega), Bool.true_and,
    show m + t - (j + 1) = m - 1 + t - j by omega]

theorem getLsbD_registerAfter_of_history (hm : m < 32) (hm1 : 1 ≤ m) (h1 : H % 2 ^ m = 1)
    (hrec : ((tappedXor g.toNat H m ^^^ H) >>> m) % 2 ^ (2 ^ m - 1) = 0) {t : Nat} (ht : t ≤ 2 ^ m - 1) (j : Nat) :
    (registerAfter g (ones m) t (canonicalState m)).getLsbD j = (decide (j < m) && H.testBit (m - 1 + t - j)) := by
  induction t generalizing j with
  | zero =>
    rw [registerAfter_zero, canonicalState, ← rev_one hm1 hm.le, getLsbD_rev hm.le]
    by_cases hj : j < m
    · have e : (1 : Word).getLsbD (m - 1 - j) = decide (m - 1 - j = 0) :=
        (getLsbD_bitWord true _).trans (Bool.true_and _)
      have h2 := congrArg (Nat.testBit · (m - 1 - j)) h1
      simp only [Nat.testBit_mod_two_pow, testBit_one, decide_eq_true (show m - 1 - j < m by omega), Bool.true_and] at h2
      rw [e, Nat.add_zero, h2]
    · simp [hj]
  | succ t ih =>
    have hfb := feedbackBit_of_history hm hrec (t := t) (by omega) (ih (by omega))
    rw [registerAfter_succ, nextRegister, hfb, getLsbD_shiftIn, getLsbD_ones hm, Bool.and_comm]
    by_cases hj : j < m
    · congr 1
      split
      · next h => subst h; congr 1; omega
      · next h =>
        rw [decide_eq_true (show j < 32 by omega), Bool.true_and, ih (by omega), decide_eq_true (show j - 1 < m by omega),
          Bool.true_and]
        congr 1; omega
    · simp [hj]

theorem count_outputBits_of_history (hm : m < 32) (hm1 : 1 ≤ m) (h1 : H % 2 ^ m = 1)
    (hrec : ((tappedXor g.toNat H m ^^^ H) >>> m) % 2 ^ (2 ^ m - 1) = 0) {t : Nat} (ht : t ≤ 2 ^ m - 1) :
    (outputBits g (ones m) t (canonicalState m)).count true = bitsBelow t (H >>> m) := by
  induction t with
  | zero => rfl
  | succ t ih =>
    rw [outputBits_succ, List.count_append, ih (by omega), bitsBelow, Nat.testBit_shiftRight,
      feedbackBit_of_history hm hrec (by omega) (getLsbD_registerAfter_of_history hm hm1 h1 hrec (by omega))]
    cases H.testBit (m + t) <;> rfl

/-- A checked history vouches for its polynomial. -/
theorem isTabulable_of_history (hm : m < 32) (hm1 : 1 ≤ m) (hg : g.toNat < 2 ^ m)
    (h : isPeriodHistory m g.toNat H = true) : isTabulable m g = true := by
  simp only [isPeriodHistory, Bool.and_eq_true, beq_iff_eq] at h
  obtain ⟨⟨⟨h1, hrec⟩, hback⟩, hones⟩ := h
  have hN : 2 ^ m = 2 ^ m - 1 + 1 := by have := Nat.two_pow_pos m; omega
  have hreg : registerAfter g (ones m) (2 ^ m - 1) (canonicalState m) = canonicalState m := by
    refine BitVec.eq_of_getLsbD_eq fun j _ => ?_
    rw [getLsbD_registerAfter_of_history hm hm1 h1 hrec (Nat.le_refl _), ← registerAfter_zero g (ones m) (canonicalState m),
      getLsbD_registerAfter_of_history hm hm1 h1 hrec (Nat.zero_le _)]
    by_cases hj : j < m
    · have e := congrArg (Nat.testBit · (m - 1 - j)) (hback.trans h1.symm)
      simp only [Nat.testBit_mod_two_pow, Nat.testBit_shiftRight, decide_eq_true (show m - 1 - j < m by omega),
        Bool.true_and] at e
      rw [show m - 1 + (2 ^ m - 1) - j = 2 ^ m - 1 + (m - 1 - j) by omega, e, Nat.add_zero]
    · simp [hj]
  have hlt : (H >>> m) % 2 ^ (2 ^ m - 1) < 2 ^ (2 ^ m - 1) := Nat.mod_lt _ (Nat.two_pow_pos _)
  have hcount : bitsBelow (2 ^ m - 1) (H >>> m) = 2 ^ (m - 1) := by
    rw [← hones, countOnes_eq (hlt.trans (Nat.pow_lt_pow_right (by omega) (by omega))), hN, bitsBelow,
      Nat.testBit_lt_two_pow (by simpa using hlt), ← hN]
    exact bitsBelow_congr fun i hi => by rw [Nat.testBit_mod_two_pow, decide_eq_true hi, Bool.true_and]
  rw [isTabulable, hreg, count_outputBits_of_history hm hm1 h1 hrec (Nat.le_refl _), hcount, decide_eq_true hg]
  simp

end

/-! ### The candidates

The history of a period is `1 + x^m / P(x)` as a power series over GF(2), where `P(x) = 1 + Σ x^(j+1)` over the taps `j`,
and `1 / P(x)` agrees with `P(x) P(x^2) P(x^4) ⋯` up to the period. Nothing rests on this but the choice of the number that
`isPeriodHistory` then checks. -/

/-- The XOR of `K` shifted up by `(j + 1) * s` over the taps `j < k` of `g`, and of `K`, kept to `2^m` bits. -/
def mulScaled (g m s K : Nat) : Nat → Nat
  | 0 => K
  | k + 1 => mulScaled g m s K k ^^^ (if g.testBit k then (K <<< ((k + 1) * s)) % 2 ^ 2 ^ m else 0)

/-- The product of the first `i` factors of the inverse. -/
def inverseSeries (g m : Nat) : Nat → Nat
  | 0 => 1
  | i + 1 => mulScaled g m (2 ^ i) (inverseSeries g m i) m

/-- A history of one period for the row `m` with stored polynomial `g`. -/
def periodHistory (g m : Nat) : Nat := 1 + (inverseSeries g m m % 2 ^ (2 ^ m - 1)) <<< m

/-- Each candidate of 10_state.md R30 is maximal-length and balanced (95_test_vectors.md, section 3). -/
theorem candidatePolynomial_isTabulable {m : Nat} (h2 : 2 ≤ m) (h15 : m ≤ 15) :
    isTabulable m (candidatePolynomial m) = true := by
  have go (k : Nat) (g : Word) (hk : 1 ≤ k ∧ k < 32 ∧ g.toNat < 2 ^ k)
      (h : isPeriodHistory k g.toNat (periodHistory g.toNat k) = true) : isTabulable k g = true :=
    isTabulable_of_history hk.2.1 hk.1 hk.2.2 h
  interval_cases m
  all_goals exact go _ _ (by decide) (by decide +kernel)

/-- Every row of the default table keeps the limit of R30 and R106, whatever its free polynomial is. -/
theorem tablePolynomial_isTabulable {m : Nat} (h2 : 2 ≤ m) (h15 : m ≤ 15) : isTabulable m (tablePolynomial m) = true := by
  rw [tablePolynomial]
  split
  · next h => subst h; exact candidatePolynomial_isTabulable (Nat.le_refl 2) (by omega)
  · split
    · next h => exact h
    · exact candidatePolynomial_isTabulable h2 h15

/-- What being in the table says. -/
theorem isTabulable_iff (m : Nat) (g : Word) :
    isTabulable m g = true ↔
      g.toNat < 2 ^ m ∧ registerAfter g (ones m) (2 ^ m - 1) (canonicalState m) = canonicalState m ∧
        (outputBits g (ones m) (2 ^ m - 1) (canonicalState m)).count true = 2 ^ (m - 1) := by
  simp [isTabulable, and_assoc]

/-! ### Full period -/

theorem registerAfter_eq_iterate (g n v : Word) (k : Nat) : registerAfter g n k v = (nextRegister g n)^[k] v := by
  induction k generalizing v with
  | zero => rfl
  | succ k ih => exact ih _

/-- Over `q` turns of a cycle of `p` steps the register comes back, and each turn gives the same number of ones. -/
theorem turns_of_cycle {g n v : Word} {p : Nat} (h : registerAfter g n p v = v) (q : Nat) :
    registerAfter g n (p * q) v = v ∧ (outputBits g n (p * q) v).count true = q * (outputBits g n p v).count true := by
  induction q with
  | zero => simp [outputBits]
  | succ q ih =>
    rw [Nat.mul_succ, registerAfter_add, outputBits_add, List.count_append, ih.1, ih.2, Nat.succ_mul]
    exact ⟨h, rfl⟩

/-- Balance over `2^m - 1` steps rules out a shorter cycle: the number of turns would divide an odd length and a power of
two. -/
theorem hasFullPeriod_of_isTabulable {m : Nat} (h1 : 1 ≤ m) {g : Word} (h : isTabulable m g = true) : HasFullPeriod m g := by
  obtain ⟨-, hback, hones⟩ := (isTabulable_iff m g).1 h
  refine ⟨hback, fun t ht ht0 hc => ?_⟩
  rw [registerAfter_eq_iterate] at hc
  have hmin := Function.isPeriodicPt_minimalPeriod (nextRegister g (ones m)) (canonicalState m)
  have hle := Function.IsPeriodicPt.minimalPeriod_le ht0 hc
  obtain ⟨q, hq⟩ := Function.IsPeriodicPt.minimalPeriod_dvd (n := 2 ^ m - 1) (f := nextRegister g (ones m))
    (x := canonicalState m) ((registerAfter_eq_iterate ..).symm.trans hback)
  have hturns := (turns_of_cycle ((registerAfter_eq_iterate ..).trans hmin) q).2
  rw [← hq, hones] at hturns
  have hpow : 2 ^ m = 2 ^ (m - 1) * 2 := by rw [← Nat.pow_succ, Nat.succ_eq_add_one, Nat.sub_add_cancel h1]
  obtain ⟨e, -, rfl⟩ := (Nat.dvd_prime_pow Nat.prime_two).1 ⟨_, hturns⟩
  cases e with
  | zero => omega
  | succ e => rw [Nat.pow_succ, ← Nat.mul_assoc] at hq; have := Nat.two_pow_pos (m - 1); omega

end Sys2Proof.Machine
end

