-- ==== Sys2Proof/Laws/Step.lean ====
section
/-! SUPPORT. Runs of the core, one step at a time. -/

namespace Sys2Proof.Machine

theorem core_run_zero (s : State) : core.run 0 s = .next s := rfl

/-- A run whose first step goes on is the run of the remaining steps. -/
theorem core_run_succ {k : Nat} {s s' : State} (h : step s = .next s') : core.run (k + 1) s = core.run k s' := by
  have go (M : Host.Core) (x x' : M.State) (hx : M.step x = .next x') : M.run (k + 1) x = M.run k x' := by
    simp only [Host.Core.run, hx]
  exact go core s s' h

/-- The state that holds the command of an opcode-table word has that command next. -/
theorem acceptCommand_withFetchWord (s : State) (nbits w : Nat) :
    acceptCommand (s.withFetchWord nbits w) = some (commandOfBits nbits w, s) := rfl

end Sys2Proof.Machine
end

