-- ==== Sys2Proof/Tests/Slice0.lean ====
section
/-! SUPPORT. Small tests, each of one step or one decoding, with expected results from the spec (95_test_vectors.md, or the
opcode map of 30_encoding.md R62), and for each statement with hypotheses a witness that meets them. -/

namespace Sys2Proof.Tests

open Sys2Proof Sys2Proof.Machine

/-! ### Well-formedness (R61, R65): each check refuses an ill-formed word -/

theorem test_wf_accepts_print : Command.wf ⟨0xD, 7, 7, 7⟩ = true := by decide
theorem test_wf_refuses_reserved_bit : Command.rsvClear ⟨0x10, 0, 0, 0⟩ = false ∧ Command.wf ⟨0x10, 0, 0, 0⟩ = false := by decide
theorem test_wf_refuses_top_reserved_bit : Command.wf ⟨0x80000004, 0, 0, 0⟩ = false := by decide
theorem test_wf_refuses_opcode_E : Command.opAssigned ⟨0xE, 0, 0, 0⟩ = false ∧ Command.wf ⟨0xE, 0, 0, 0⟩ = false := by decide

/-! ### Decoding: each word written out from R62, with RSV in bits 31:4 and OP in bits 3:0 -/

theorem test_decode_create :
    decode ⟨0b00000000000000000000000000000000, 4, 0x13, 1⟩ = .ok (.create 4 0x13 1) := by decide
theorem test_decode_create_genpoly :
    decode ⟨0b00000000000000000000000000000001, 0xB, 5, 6⟩ = .ok (.createGenpoly 0xB) := by decide
theorem test_decode_create_default :
    decode ⟨0b00000000000000000000000000000010, 2, 5, 6⟩ = .ok (.createDefault 2) := by decide
theorem test_decode_destroy : decode ⟨0b00000000000000000000000000000011, 9, 9, 9⟩ = .ok .destroy := by decide
theorem test_decode_advance : decode ⟨0b00000000000000000000000000000100, 9, 9, 9⟩ = .ok .advance := by decide
theorem test_decode_gensym : decode ⟨0b00000000000000000000000000000101, 8, 9, 9⟩ = .ok (.gensym 8) := by decide
theorem test_decode_reset : decode ⟨0b00000000000000000000000000000110, 9, 9, 9⟩ = .ok .reset := by decide
theorem test_decode_get_m : decode ⟨0b00000000000000000000000000000111, 9, 9, 9⟩ = .ok .getM := by decide
theorem test_decode_get_g : decode ⟨0b00000000000000000000000000001000, 9, 9, 9⟩ = .ok .getG := by decide
theorem test_decode_get_n : decode ⟨0b00000000000000000000000000001001, 9, 9, 9⟩ = .ok .getN := by decide
theorem test_decode_get_v : decode ⟨0b00000000000000000000000000001010, 9, 9, 9⟩ = .ok .getV := by decide
theorem test_decode_set_state :
    decode ⟨0b00000000000000000000000000001011, 0xFFFFFFFF, 9, 9⟩ = .ok (.setState 0xFFFFFFFF) := by decide
theorem test_decode_fill : decode ⟨0b00000000000000000000000000001100, 9, 9, 9⟩ = .ok .fill := by decide
theorem test_decode_print : decode ⟨0b00000000000000000000000000001101, 9, 9, 9⟩ = .ok .print := by decide
theorem test_decode_refuses_E_and_F :
    decode ⟨0xE, 0, 0, 0⟩ = .error .reservedOpcode ∧ decode ⟨0xF, 0, 0, 0⟩ = .error .reservedOpcode := by decide
theorem test_decode_refuses_reserved_bits :
    decode ⟨0x10, 0, 0, 0⟩ = .error .reservedBits ∧ decode ⟨0xFFFFFFF4, 0, 0, 0⟩ = .error .reservedBits := by decide
theorem test_decode_table_word : decodeTableWord 32 0x5 = some (.gensym 0) ∧ decodeTableWord 32 0xE = none := by decide
/-- Bits above `nbits` are 0, and `ARG0` stands above `CMD`. -/
theorem test_decode_table_word_bits :
    decodeTableWord 32 0x700000005 = some (.gensym 0) ∧ decodeTableWord 64 0x700000005 = some (.gensym 7) := by decide

/-! ### The assembler (R69, R70, R71) -/

theorem test_assemble_lines :
    assemble "CREATE 4, 0x13, 1 ; R71\n\n; a comment\n SKIP 5\n" = .ok [⟨0, 4, 0x13, 1⟩, ⟨5, 5, 0, 0⟩] := by decide
theorem test_assemble_wrong_count :
    assemble "CREATE 4, 0x13" = .error .wrongOperandCount ∧ assemble "ADVANCE 1" = .error .wrongOperandCount := by decide
theorem test_assemble_errors :
    assemble "JUMP" = .error .unknownMnemonic ∧ assemble "GENSYM -1" = .error .badLiteral ∧
      assemble "GENSYM 0x100000000" = .error .operandTooLarge := by decide

/-! ### Test states -/

/-- The state an answer goes on to. -/
def nextOf (a : Answer) : Option State :=
  match a with
  | .next s => some s
  | .fault _ => none
  | .refused _ => none

/-- The seven registers, in the order of 95_test_vectors.md: VALID M G A N V B. -/
def regs (s : State) : Bit × InstanceRow := (s.valid, ⟨s.m, s.g, s.a, s.n, s.v, s.b⟩)

/-- The registers an answer leaves and the responses it adds to none. -/
def outcome (a : Answer) : Option ((Bit × InstanceRow) × List Response) :=
  (nextOf a).map fun s => (regs s, s.responses)

/-- A core with the given registers and nothing on its ports. -/
def core7 (valid : Bit) (m g a n v : Word) (b : Bit) : State :=
  { State.reset with valid := valid, m := m, g := g, a := a, n := n, v := v, b := b }

/-- After `CREATE_DEFAULT 2` (95_test_vectors.md 2.1.3). -/
def inst2 : State := core7 true 2 0x3 0x2 0x3 0x2 false

/-- After `CREATE 3, 0xFB, 1` (95_test_vectors.md 2.1.1). -/
def inst3High : State := core7 true 3 0x7D 0x4 0x7 0x4 false

/-- `inst2` without its instance. -/
def dead2 : State := inst2.setValid false

/-! ### One step each -/

theorem test_create_reverses_and_shifts :
    outcome (exec (.create 4 0x13 0xB) State.reset) = some ((true, ⟨4, 0x9, 0xD, 0xF, 0xD, false⟩), [⟨.ok, .none, 0⟩]) := by decide
theorem test_create_length_limits :
    outcome (exec (.create 31 0x80000009 1) inst2) =
        some ((true, ⟨31, 0x40000004, 0x40000000, 0x7FFFFFFF, 0x40000000, false⟩), [⟨.ok, .none, 0⟩]) ∧
      outcome (exec (.create 32 7 1) inst2) = some (regs inst2, [⟨.configError, .lengthRange, 0⟩]) := by decide
theorem test_create_genpoly_top :
    outcome (exec (.createGenpoly 0xFFFFFFFF) State.reset) =
      some ((true, ⟨31, 0x7FFFFFFF, 0x40000000, 0x7FFFFFFF, 0x40000000, false⟩), [⟨.ok, .none, 0⟩]) := by decide
theorem test_create_genpoly_rejects :
    outcome (exec (.createGenpoly 1) inst2) = some (regs inst2, [⟨.configError, .polyDegenerate, 0⟩]) ∧
      outcome (exec (.createGenpoly 3) inst2) = some (regs inst2, [⟨.configError, .lengthRange, 0⟩]) := by decide
theorem test_create_default_row_2 :
    outcome (exec (.createDefault 2) inst3High) = some (regs inst2, [⟨.ok, .none, 0⟩]) := by decide
theorem test_create_default_rejects :
    outcome (exec (.createDefault 16) inst2) = some (regs inst2, [⟨.configError, .defaultRange, 0⟩]) ∧
      outcome (exec (.createDefault 1) inst2) = some (regs inst2, [⟨.configError, .defaultRange, 0⟩]) := by decide
theorem test_destroy : outcome (exec .destroy inst2) = some (regs dead2, [⟨.ok, .none, 0⟩]) := by decide
theorem test_destroy_twice : outcome (exec .destroy dead2) = some (regs dead2, [⟨.noInstance, .none, 0⟩]) := by decide
theorem test_advance :
    outcome (exec .advance inst2) = some ((true, ⟨2, 0x3, 0x2, 0x3, 0x1, true⟩), [⟨.ok, .none, 1⟩]) := by decide
/-- 95_test_vectors.md 2.2.6: a bit of `G` above `M` counts against an unmasked `V`. -/
theorem test_advance_unmasked :
    outcome (exec .advance (inst3High.setV 0x40)) = some ((true, ⟨3, 0x7D, 0x4, 0x7, 0x1, true⟩), [⟨.ok, .none, 1⟩]) := by decide
theorem test_gensym_first_bit_on_top :
    outcome (exec (.gensym 3) inst2) = some ((true, ⟨2, 0x3, 0x2, 0x3, 0x2, false⟩), [⟨.ok, .none, 6⟩]) := by decide
theorem test_gensym_33_loses_the_first_bit :
    (outcome (exec (.gensym 33) inst2)).map Prod.snd = some [⟨.ok, .none, 0xB6DB6DB6⟩] := by decide +kernel
theorem test_reset_keeps_b :
    outcome (exec .reset (core7 true 2 0x3 0x2 0x3 0x3 true)) =
      some ((true, ⟨2, 0x3, 0x2, 0x3, 0x2, true⟩), [⟨.ok, .none, 0⟩]) := by decide
theorem test_get_m : outcome (exec .getM inst3High) = some (regs inst3High, [⟨.ok, .none, 3⟩]) := by decide
theorem test_get_g : outcome (exec .getG inst3High) = some (regs inst3High, [⟨.ok, .none, 0x7D⟩]) := by decide
theorem test_get_n : outcome (exec .getN inst3High) = some (regs inst3High, [⟨.ok, .none, 0x7⟩]) := by decide
theorem test_get_v : outcome (exec .getV (inst2.setV 0x100)) = some (regs (inst2.setV 0x100), [⟨.ok, .none, 0x100⟩]) := by decide
theorem test_set_state_unmasked :
    outcome (exec (.setState 0xFFFFFFFF) inst2) = some (regs (inst2.setV 0xFFFFFFFF), [⟨.ok, .none, 0⟩]) := by decide
/-- 95_test_vectors.md 2.6.1. -/
theorem test_fill :
    (nextOf (exec .fill inst2)).map (fun s => (regs s, s.bufEvents)) =
      some (regs inst2, [.clear, .push true, .push true, .push false]) := by decide
theorem test_print :
    (nextOf (exec .print (inst2.setV 0x100))).map (fun s => (regs s, s.diagEvents)) =
      some (regs (inst2.setV 0x100), [⟨2, 0x3, 0x100, 0x3⟩]) := by decide
theorem test_no_instance_emits_nothing :
    (nextOf (exec .fill dead2)).map State.bufEvents = some [] ∧ (nextOf (exec .print dead2)).map State.diagEvents = some [] := by
  decide
/-- 95_test_vectors.md 2.7.2: decoding comes before `VALID`. -/
theorem test_illegal_before_valid :
    outcome (step (State.reset.withFetchWord 32 0x10)) = some (regs State.reset, [⟨.illegalCommand, .none, 0⟩]) := by decide
theorem test_step_runs_fetch_word :
    outcome (step (inst2.withFetchWord 64 0x300000005)) = some (regs inst2, [⟨.ok, .none, 6⟩]) := by decide
theorem test_recorded_faults :
    (nextOf (step (State.reset.withFetchWord 32 0x7))).map State.recordedFaults = some [.noInstance] ∧
      (nextOf (step (inst2.withFetchWord 32 0x0))).map State.recordedFaults = some [] := by decide

/-! ### Witnesses: states and operands that meet the hypotheses of each statement -/

/-- A state with one command presented. -/
def with1 (s : State) (c : Command) : State := s.present c

theorem witness_AssemblerAgreesWithEncoder : [1, 2, 3].length ≠ (Instr.operands .advance).length := by decide
theorem witness_IgnoredOperandsHaveNoEffect :
    decode ⟨5, 3, 1, 2⟩ = .ok (.gensym 3) ∧ (⟨5, 3, 8, 9⟩ : Command).cmd = (⟨5, 3, 1, 2⟩ : Command).cmd ∧
      [3, 8, 9].take (Instr.operands (.gensym 3)).length = ([3, 1, 2] : List Word).take (Instr.operands (.gensym 3)).length := by
  decide
theorem witness_StepRunsTheDecodedCommand :
    (with1 inst2 ⟨4, 0, 0, 0⟩).pending = ⟨4, 0, 0, 0⟩ :: [] ∧ decode ⟨4, 0, 0, 0⟩ = .ok .advance := by decide
theorem witness_IdlingChangesNothing : inst2.pending = [] := by decide
theorem witness_IllegalCommandIsRejected_reserved_bits :
    (with1 inst2 ⟨16, 0, 0, 0⟩).pending = ⟨16, 0, 0, 0⟩ :: [] ∧ 16 ≤ (⟨16, 0, 0, 0⟩ : Command).cmd.toNat := by decide
theorem witness_IllegalCommandIsRejected_opcodes :
    (with1 dead2 ⟨0xE, 0, 0, 0⟩).pending = ⟨0xE, 0, 0, 0⟩ :: [] ∧ (with1 dead2 ⟨0xF, 0, 0, 0⟩).pending = ⟨0xF, 0, 0, 0⟩ :: [] := by
  decide
theorem witness_EveryCommandAnswersOnce : (with1 dead2 ⟨0xC, 0, 0, 0⟩).pending = ⟨0xC, 0, 0, 0⟩ :: [] := by decide
theorem witness_LaterCommandsAreHeld :
    (with1 inst2 ⟨0xA, 0, 0, 0⟩).pending ≠ [] ∧
      step (with1 inst2 ⟨0xA, 0, 0, 0⟩) = .next (inst2.addResponse ⟨.ok, .none, 2⟩) := ⟨by decide, rfl⟩
theorem witness_FaultsRecordedExactly :
    step (with1 dead2 ⟨0xA, 0, 0, 0⟩) = .next (dead2.addResponse ⟨.noInstance, .none, 0⟩) ∧
      step (with1 dead2 ⟨0xE, 0, 0, 0⟩) = .next (dead2.addResponse ⟨.illegalCommand, .none, 0⟩) ∧
      step (with1 inst2 ⟨0, 0, 0, 0⟩) = .next (inst2.addResponse ⟨.configError, .lengthRange, 0⟩) ∧
      step inst2 = .next inst2 ∧ inst2.pending = [] := ⟨rfl, rfl, rfl, rfl, rfl⟩
theorem witness_UnspecifiedRegistersAreUnobservable : AgreeWhileValid dead2 State.reset ∧ dead2 ≠ State.reset := by decide
theorem witness_LastOutputBitIsUnobservable : AgreeButB inst2 (inst2.setB true) ∧ inst2 ≠ inst2.setB true := by decide
theorem witness_CreateEffect_in_range :
    (2 ≤ (2 : Word).toNat ∧ (2 : Word).toNat ≤ 31) ∧ 2 ≤ (31 : Word).toNat ∧ (31 : Word).toNat ≤ 31 := by decide
theorem witness_CreateEffect_out_of_range :
    ¬(2 ≤ (1 : Word).toNat ∧ (1 : Word).toNat ≤ 31) ∧ ¬(2 ≤ (32 : Word).toNat ∧ (32 : Word).toNat ≤ 31) ∧
      ¬(2 ≤ (0xFFFFFFFF : Word).toNat ∧ (0xFFFFFFFF : Word).toNat ≤ 31) := by decide
theorem witness_InitialStateIsReversed :
    2 ≤ (3 : Word).toNat ∧ (3 : Word).toNat ≤ 31 ∧
      ∀ i, i < (3 : Word).toNat → (0xF9 : Word).getLsbD i = (0x1 : Word).getLsbD i := by decide
theorem witness_CreateGenpolyEffect_degenerate : (0 : Word).toNat ≤ 1 ∧ (1 : Word).toNat ≤ 1 := by decide
theorem witness_CreateGenpolyEffect_short :
    ((2 : Word).toNat = 2 ∨ (2 : Word).toNat = 3) ∧ ((3 : Word).toNat = 2 ∨ (3 : Word).toNat = 3) := by decide
theorem witness_CreateGenpolyEffect_built :
    (2 ≤ 2 ∧ 2 ^ 2 ≤ (4 : Word).toNat ∧ (7 : Word).toNat < 2 ^ (2 + 1)) ∧
      2 ≤ 31 ∧ 2 ^ 31 ≤ (0x80000000 : Word).toNat ∧ (0xFFFFFFFF : Word).toNat < 2 ^ (31 + 1) := by decide
theorem witness_CreateDefaultEffect_in_range :
    (2 ≤ (2 : Word).toNat ∧ (2 : Word).toNat ≤ 15) ∧ 2 ≤ (15 : Word).toNat ∧ (15 : Word).toNat ≤ 15 := by decide
theorem witness_CreateDefaultEffect_out_of_range :
    ¬(2 ≤ (1 : Word).toNat ∧ (1 : Word).toNat ≤ 15) ∧ ¬(2 ≤ (16 : Word).toNat ∧ (16 : Word).toNat ≤ 15) := by decide
theorem witness_DefaultTableForm : (2 ≤ 2 ∧ 2 ≤ 15) ∧ 2 ≤ 15 ∧ 15 ≤ 15 := by decide
theorem witness_ConstructionIsAllOrNothing :
    Instr.isConstruction (.create 2 7 1) = true ∧ Instr.isConstruction (.createGenpoly 1) = true ∧
      Instr.isConstruction (.createDefault 16) = true := by decide
theorem witness_CreateDefaultMatchesCreate :
    (2 ≤ (2 : Word).toNat ∧ (2 : Word).toNat ≤ 15) ∧ 2 ≤ (15 : Word).toNat ∧ (15 : Word).toNat ≤ 15 := by decide
theorem witness_CreateGenpolyMatchesCreate : 3 ≤ bitlen 4 ∧ 3 ≤ bitlen 0xFFFFFFFF := by decide
theorem witness_DestroyEffect : inst2.valid = true ∧ dead2.valid = false := by decide
theorem witness_AdvanceEffect :
    inst2.valid = true ∧ dead2.valid = false ∧
      true = decide (((List.range 32).countP fun i => inst2.v.getLsbD i && inst2.g.getLsbD i) % 2 = 1) := by decide
theorem witness_AdvanceShiftsTowardTheTop : (inst2.setV 0xFFFFFFFF).Inv ∧ (inst2.setV 0xFFFFFFFF).valid = true := by decide
theorem witness_GensymEffect : inst2.valid = true ∧ dead2.valid = false := by decide
theorem witness_GensymEqualsRepeatedAdvance : inst3High.valid = true := by decide
theorem witness_DefaultRowsHavePeriodAndBalance :
    (2 ≤ (2 : Word).toNat ∧ (2 : Word).toNat ≤ 15) ∧ 2 ≤ (15 : Word).toNat ∧ (15 : Word).toNat ≤ 15 := by decide
theorem witness_ZeroRegisterStaysZero :
    (inst2.setV 0).valid = true ∧ (inst2.setV 0).v = 0 ∧
      ∀ i ∈ ([.advance, .fill, .gensym 9] : List Instr),
        i.isConstruction = false ∧ i ≠ .destroy ∧ i ≠ .reset ∧ ∀ x, i ≠ .setState x := by
  refine ⟨rfl, rfl, fun i hi => ?_⟩
  simp only [List.mem_cons, List.not_mem_nil, or_false] at hi
  rcases hi with rfl | rfl | rfl <;> exact ⟨rfl, by simp, by simp, by simp⟩
/-- `CREATE 2, 0x3, 1` has odd weight, `inst2` even weight (95_test_vectors.md 2.2.4). -/
theorem witness_FixedPointsOfAdvance :
    ((core7 true 2 1 2 3 3 false).Inv ∧ (core7 true 2 1 2 3 3 false).Masked ∧ (core7 true 2 1 2 3 3 false).valid = true ∧
      ((List.range 2).countP (1 : Word).getLsbD) % 2 = 1) ∧
    (inst2.setV 3).Inv ∧ (inst2.setV 3).Masked ∧ (inst2.setV 3).valid = true ∧ (inst2.setV 3).v = (inst2.setV 3).n ∧
      ((List.range 2).countP (3 : Word).getLsbD) % 2 = 0 := by decide
theorem witness_OutputObeysLinearRecurrence : inst3High.Inv ∧ inst3High.Masked ∧ inst3High.valid = true := by decide
theorem witness_HighTapsAreHiddenWhileMasked :
    inst3High.Inv ∧ inst3High.Masked ∧ inst3High.valid = true ∧ (0x5 : Word) &&& inst3High.n = inst3High.g &&& inst3High.n := by
  decide
theorem witness_ResetEffect : inst2.valid = true ∧ dead2.valid = false := by decide
/-- A construction, then ADVANCE and SET_STATE before the RESET. -/
theorem witness_ResetReproducesTheSequence :
    Instr.isConstruction (.create 3 0xB 1) = true ∧
      (∃ t, exec (.create 3 0xB 1) State.reset = .next t ∧ t.responses = State.reset.responses ++ [⟨.ok, .none, 0⟩] ∧
        ∃ u, execAll [.advance, .setState 0xFFFFFFFF] t = .next u) ∧
      ∀ j ∈ ([.advance, .setState 0xFFFFFFFF] : List Instr), j.isConstruction = false ∧ j ≠ .destroy :=
  ⟨rfl, ⟨_, rfl, rfl, _, rfl⟩, by decide⟩
theorem witness_AccessorsReturnTheirRegister : inst2.valid = true ∧ dead2.valid = false := by decide
theorem witness_SetStateEffect : inst2.valid = true ∧ dead2.valid = false := by decide
theorem witness_FillEffect : inst2.valid = true ∧ dead2.valid = false := by decide
theorem witness_FillPushesOneWholePeriod :
    inst2.valid = true ∧ 2 ≤ inst2.m.toNat ∧ inst2.m.toNat ≤ 31 ∧ inst2.n.toNat = 2 ^ inst2.m.toNat - 1 ∧
      HasFullPeriod inst2.m.toNat inst2.g ∧ 0 < inst2.v.toNat ∧ inst2.v.toNat ≤ inst2.n.toNat := by decide
/-- A length above the default table: `x^16 + x^5 + x^3 + x^2 + 1`, checked over its whole period by calculation. -/
theorem witness_FillPushesOneWholePeriod_above_table : HasFullPeriod 16 0x8016 :=
  hasFullPeriod_of_isTabulable (by decide) (isTabulable_of_history (by decide) (by decide) (by decide)
    (show isPeriodHistory 16 0x8016 (periodHistory 0x8016 16) = true by decide +kernel))
/-- Not every polynomial has full period: `x^4 + x^3 + x^2 + x + 1` divides `x^5 + 1`. -/
theorem witness_HasFullPeriod_fails : ¬HasFullPeriod 4 0xF := by decide
theorem witness_PrintEffect : inst2.valid = true ∧ dead2.valid = false := by decide
theorem witness_OnlyFillAndPrintEmitEvents : exec .getV inst2 = .next (inst2.addResponse ⟨.ok, .none, 2⟩) := rfl
theorem witness_NoInstanceIsRejected : Instr.isConstruction .fill = false ∧ dead2.valid = false := by decide
theorem witness_OnlyConstructionCanFail :
    Instr.isConstruction (.gensym 40) = false ∧ inst2.valid = true ∧ dead2.valid = false := by decide
theorem witness_InstanceIsFixedAfterConstruction :
    Instr.isConstruction .getV = false ∧ exec .getV inst2 = .next (inst2.addResponse ⟨.ok, .none, 2⟩) := ⟨rfl, rfl⟩
theorem witness_RepeatingLeavesTheSameRegisters : ∃ x, Instr.setState 5 = .setState x := ⟨5, rfl⟩
theorem witness_StepKeepsInstanceInvariant :
    inst2.Inv ∧ inst2.valid = true ∧ step (with1 inst2 ⟨0xA, 0, 0, 0⟩) = .next (inst2.addResponse ⟨.ok, .none, 2⟩) :=
  ⟨by decide, rfl, rfl⟩
theorem witness_StepKeepsRegisterMasked :
    (with1 inst2 ⟨0xA, 0, 0, 0⟩).Inv ∧ (with1 inst2 ⟨0xA, 0, 0, 0⟩).Masked ∧
      (∀ c rest x, (with1 inst2 ⟨0xA, 0, 0, 0⟩).pending = c :: rest → decode c ≠ .ok (.setState x)) ∧
      step (with1 inst2 ⟨0xA, 0, 0, 0⟩) = .next (inst2.addResponse ⟨.ok, .none, 2⟩) := by
  refine ⟨by decide, by decide, fun c rest x h => ?_, rfl⟩
  obtain ⟨rfl, -⟩ := List.cons.inj h
  rw [show decode ⟨0xA, 0, 0, 0⟩ = .ok .getV by decide]
  intro e; cases e

end Sys2Proof.Tests
end

section
/-! SUPPORT. Each command as one equation over the register's steps, what a command and a step can do, and runs of related
states. Later proofs cite these instead of unfolding `exec` or `step`. -/

namespace Sys2Proof.Machine

/-! ### The register over several steps, in the state -/

/-- The state after `k` calls of `advance()` (41_advancement.md R100). -/
def State.afterSteps (s : State) (k : Nat) : State :=
  (s.setB (lastBit s.g s.n k s.v s.b)).setV (registerAfter s.g s.n k s.v)

section
variable (s : State) (k : Nat)

@[simp] theorem State.afterSteps_valid : (s.afterSteps k).valid = s.valid := rfl
@[simp] theorem State.afterSteps_m : (s.afterSteps k).m = s.m := rfl
@[simp] theorem State.afterSteps_g : (s.afterSteps k).g = s.g := rfl
@[simp] theorem State.afterSteps_a : (s.afterSteps k).a = s.a := rfl
@[simp] theorem State.afterSteps_n : (s.afterSteps k).n = s.n := rfl
@[simp] theorem State.afterSteps_v : (s.afterSteps k).v = registerAfter s.g s.n k s.v := rfl
@[simp] theorem State.afterSteps_b : (s.afterSteps k).b = lastBit s.g s.n k s.v s.b := rfl
@[simp] theorem State.afterSteps_pending : (s.afterSteps k).pending = s.pending := rfl
@[simp] theorem State.afterSteps_responses : (s.afterSteps k).responses = s.responses := rfl
@[simp] theorem State.afterSteps_bufEvents : (s.afterSteps k).bufEvents = s.bufEvents := rfl
@[simp] theorem State.afterSteps_diagEvents : (s.afterSteps k).diagEvents = s.diagEvents := rfl

end

/-! ### Each command that needs an instance, with one -/

section
variable {s : State}

theorem exec_destroy_of_valid (h : s.valid = true) : exec .destroy s = respondOk 0 (s.setValid false) := if_pos h

theorem exec_advance_of_valid (h : s.valid = true) :
    exec .advance s = respondOk (bitWord (feedbackBit s.g s.v)) (s.afterSteps 1) := if_pos h

theorem exec_gensym_of_valid (h : s.valid = true) (k : Word) :
    exec (.gensym k) s = respondOk (packBits (outputBits s.g s.n k.toNat s.v)) (s.afterSteps k.toNat) := by
  refine (if_pos h).trans ?_
  rw [symbolLoop_eq]; rfl

theorem exec_reset_of_valid (h : s.valid = true) : exec .reset s = respondOk 0 (s.setV s.a) := if_pos h

theorem exec_getM_of_valid (h : s.valid = true) : exec .getM s = respondOk s.m s := if_pos h

theorem exec_getG_of_valid (h : s.valid = true) : exec .getG s = respondOk s.g s := if_pos h

theorem exec_getN_of_valid (h : s.valid = true) : exec .getN s = respondOk s.n s := if_pos h

theorem exec_getV_of_valid (h : s.valid = true) : exec .getV s = respondOk s.v s := if_pos h

theorem exec_setState_of_valid (h : s.valid = true) (x : Word) : exec (.setState x) s = respondOk 0 (s.setV x) :=
  if_pos h

theorem exec_fill_of_valid (h : s.valid = true) :
    exec .fill s = respondOk 0
      { s with
        bufEvents := s.bufEvents ++ .clear :: (outputBits s.g s.n s.n.toNat s.v).map .push
        b := lastBit s.g s.n s.n.toNat s.v s.b
        v := registerAfter s.g s.n s.n.toNat s.v } := by
  refine (if_pos h).trans ?_
  rw [pushLoop_eq, List.append_cons]; rfl

theorem exec_print_of_valid (h : s.valid = true) :
    exec .print s = respondOk 0 (s.emitPrint { m := s.m, n := s.n, v := s.v, g := s.g }) := if_pos h

/-- 60_exceptions.md R153: without an instance every command but CREATE* answers NO_INSTANCE. -/
theorem exec_of_not_valid {i : Instr} (hi : i.isConstruction = false) (h : s.valid = false) :
    exec i s = raiseNoInstance s := by
  cases i with
  | create | createGenpoly | createDefault => cases hi
  | destroy | advance | gensym | reset | getM | getG | getN | getV | setState | fill | print =>
    exact if_neg (by simp [h])

end

/-! ### Constructions -/

/-- What every row a construction writes meets (10_state.md R28; 40_construction.md R80, R84). -/
structure InstanceRow.Inv (row : InstanceRow) : Prop where
  two_le_m : 2 ≤ row.m.toNat
  m_le : row.m.toNat ≤ 31
  n_eq : row.n.toNat = 2 ^ row.m.toNat - 1
  a_le : row.a.toNat ≤ row.n.toNat
  v_eq : row.v = row.a

theorem explicitRow_inv {m : Word} (hm : lengthOk m = true) (g a : Word) : (explicitRow m g a).Inv := by
  obtain ⟨h2, h31⟩ := (lengthOk_iff m).mp hm
  have hn : (ones m.toNat).toNat = 2 ^ m.toNat - 1 := toNat_ones (by omega)
  have ha : (rev m.toNat a).toNat < 2 ^ m.toNat := rev_lt (by omega) a
  exact ⟨h2, h31, hn, show (rev m.toNat a).toNat ≤ (ones m.toNat).toNat by omega, rfl⟩

theorem toNat_tableRead_m {m : Nat} (hm : m < 32) : (tableRead m).m.toNat = m :=
  (BitVec.toNat_ofNat m 32).trans (Nat.mod_eq_of_lt (by omega))

theorem tableRead_inv {m : Nat} (h2 : 2 ≤ m) (h15 : m ≤ 15) : (tableRead m).Inv := by
  have hm : (tableRead m).m.toNat = m := toNat_tableRead_m (by omega)
  have hn : (tableRead m).n.toNat = 2 ^ m - 1 := toNat_ones (by omega)
  have ha : (tableRead m).a.toNat = 2 ^ (m - 1) := toNat_canonicalState (by omega)
  have hlt : 2 ^ (m - 1) < 2 ^ m := Nat.pow_lt_pow_right (by omega) (by omega)
  exact ⟨by omega, by omega, by rw [hm, hn], by omega, rfl⟩

/-- The command either writes one row, the same from every state, or answers one configuration error from every state
(40_construction.md R85). -/
def BuildsOrRefuses (f : State → Answer) : Prop :=
  (∃ row : InstanceRow, row.Inv ∧ ∀ s, f s = respondOk 0 (s.construct row)) ∨
    ∃ reason, reason ≠ .none ∧ ∀ s, f s = raiseConfigurationError reason s

theorem constructExplicit_buildsOrRefuses (m g a : Word) : BuildsOrRefuses (constructExplicit m g a) := by
  by_cases hm : lengthOk m = true
  · exact .inl ⟨_, explicitRow_inv hm g a, fun s => if_pos hm⟩
  · exact .inr ⟨.lengthRange, nofun, fun s => if_neg hm⟩

theorem execCreateGenpoly_buildsOrRefuses (g : Word) : BuildsOrRefuses (execCreateGenpoly g) := by
  by_cases hg : bitlen g < 2
  · exact .inr ⟨.polyDegenerate, nofun, fun s => if_pos hg⟩
  · have h : execCreateGenpoly g = constructExplicit (derivedLength g) g 1 := funext fun s => if_neg hg
    rw [h]; exact constructExplicit_buildsOrRefuses ..

theorem execCreateDefault_buildsOrRefuses (m : Word) : BuildsOrRefuses (execCreateDefault m) := by
  by_cases hm : defaultLengthOk m = true
  · obtain ⟨h2, h15⟩ := (defaultLengthOk_iff m).mp hm
    exact .inl ⟨_, tableRead_inv h2 h15, fun s => if_pos hm⟩
  · exact .inr ⟨.defaultRange, nofun, fun s => if_neg hm⟩

theorem exec_buildsOrRefuses {i : Instr} (hi : i.isConstruction = true) : BuildsOrRefuses (exec i) := by
  cases i with
  | create m g a => exact constructExplicit_buildsOrRefuses m g a
  | createGenpoly g => exact execCreateGenpoly_buildsOrRefuses g
  | createDefault m => exact execCreateDefault_buildsOrRefuses m
  | destroy | advance | gensym | reset | getM | getG | getN | getV | setState | fill | print => cases hi

/-! ### What a command can do -/

/-- `InstanceEffect s i u`: with an instance, `i` may leave `u` of `s` before its response is added. -/
inductive InstanceEffect (s : State) : Instr → State → Prop where
  /-- DESTROY ends the instance. -/
  | ended : InstanceEffect s .destroy (s.setValid false)
  /-- RESET restores the register. -/
  | restored : InstanceEffect s .reset (s.setV s.a)
  /-- SET_STATE writes the register. -/
  | written (x : Word) : InstanceEffect s (.setState x) (s.setV x)
  /-- ADVANCE, GENSYM and FILL run the register, and of them only FILL emits. -/
  | ran (i : Instr) (k : Nat) (events : List BufEvent) (h : i ≠ .fill → events = []) :
      InstanceEffect s i
        { s with
          bufEvents := s.bufEvents ++ events
          b := lastBit s.g s.n k s.v s.b
          v := registerAfter s.g s.n k s.v }
  /-- The accessors and PRINT write no register, and of them only PRINT emits. -/
  | shown (i : Instr) (events : List DiagEvent) (h : i ≠ .print → events = []) :
      InstanceEffect s i { s with diagEvents := s.diagEvents ++ events }

/-- ADVANCE and GENSYM run the register without an event. -/
theorem InstanceEffect.ranSilently (s : State) (i : Instr) (k : Nat) : InstanceEffect s i (s.afterSteps k) := by
  have h := InstanceEffect.ran (s := s) i k [] fun _ => rfl
  rwa [List.append_nil] at h

/-- The accessors leave the state as it is. -/
theorem InstanceEffect.unchanged (s : State) (i : Instr) : InstanceEffect s i s := by
  have h := InstanceEffect.shown (s := s) i [] fun _ => rfl
  rwa [List.append_nil] at h

theorem exec_of_valid {i : Instr} {s : State} (hi : i.isConstruction = false) (hv : s.valid = true) :
    ∃ x u, InstanceEffect s i u ∧ exec i s = respondOk x u := by
  cases i with
  | create | createGenpoly | createDefault => cases hi
  | destroy => exact ⟨_, _, .ended, exec_destroy_of_valid hv⟩
  | advance => exact ⟨_, _, .ranSilently s _ 1, exec_advance_of_valid hv⟩
  | gensym k => exact ⟨_, _, .ranSilently s _ k.toNat, exec_gensym_of_valid hv k⟩
  | reset => exact ⟨_, _, .restored, exec_reset_of_valid hv⟩
  | getM => exact ⟨_, _, .unchanged s _, exec_getM_of_valid hv⟩
  | getG => exact ⟨_, _, .unchanged s _, exec_getG_of_valid hv⟩
  | getN => exact ⟨_, _, .unchanged s _, exec_getN_of_valid hv⟩
  | getV => exact ⟨_, _, .unchanged s _, exec_getV_of_valid hv⟩
  | setState x => exact ⟨_, _, .written x, exec_setState_of_valid hv x⟩
  | fill => exact ⟨_, _, .ran _ s.n.toNat _ (absurd rfl), exec_fill_of_valid hv⟩
  | print => exact ⟨_, _, .shown _ _ (absurd rfl), exec_print_of_valid hv⟩

theorem respond_eq_next_iff {st : Status} {re : Reason} {x : Word} {s t : State} :
    respond st re x s = .next t ↔ t = s.addResponse ⟨st, re, x⟩ := by
  rw [respond_eq_next, Host.Outcome.next.injEq, eq_comm]

/-- A command adds one response, to a new instance, to the state it found, or to what it makes of an instance. -/
theorem exec_cases {i : Instr} {s t : State} (h : exec i s = .next t) :
    (∃ row r, i.isConstruction = true ∧ row.Inv ∧ t = (s.construct row).addResponse r) ∨
    (∃ r, t = s.addResponse r) ∨
    ∃ u r, i.isConstruction = false ∧ s.valid = true ∧ InstanceEffect s i u ∧ t = u.addResponse r := by
  cases hi : i.isConstruction with
  | true =>
    obtain ⟨row, hrow, hf⟩ | ⟨reason, -, hf⟩ := exec_buildsOrRefuses hi
    · exact .inl ⟨row, _, rfl, hrow, respond_eq_next_iff.mp ((hf s).symm.trans h)⟩
    · exact .inr (.inl ⟨_, respond_eq_next_iff.mp ((hf s).symm.trans h)⟩)
  | false =>
    cases hv : s.valid with
    | true =>
      obtain ⟨x, u, hu, hf⟩ := exec_of_valid hi hv
      exact .inr (.inr ⟨u, _, rfl, rfl, hu, respond_eq_next_iff.mp (hf.symm.trans h)⟩)
    | false => exact .inr (.inl ⟨_, respond_eq_next_iff.mp ((exec_of_not_valid hi hv).symm.trans h)⟩)

/-! ### What a step can do -/

theorem step_of_idle {s : State} (h : s.pending = []) : step s = .next s := by rw [step, acceptCommand_nil h]

theorem step_of_illegal {s : State} {c : Command} {rest : List Command} {e : DecodeError} (h : s.pending = c :: rest)
    (hd : decode c = .error e) : step s = raiseIllegalCommand { s with pending := rest } := by
  simp only [step, acceptCommand_cons h, hd]

theorem step_of_legal {s : State} {c : Command} {rest : List Command} {i : Instr} (h : s.pending = c :: rest)
    (hd : decode c = .ok i) : step s = exec i { s with pending := rest } := by
  simp only [step, acceptCommand_cons h, hd]

/-- A step is idle, rejects an illegal word, or runs the command it accepts. -/
theorem step_cases {s t : State} (h : step s = .next t) :
    t = s ∨ (∃ rest r, t = State.addResponse { s with pending := rest } r) ∨
    ∃ c rest i, s.pending = c :: rest ∧ decode c = .ok i ∧ exec i { s with pending := rest } = .next t := by
  cases hp : s.pending with
  | nil => exact .inl (Host.Outcome.next.inj ((step_of_idle hp).symm.trans h)).symm
  | cons c rest =>
    cases hd : decode c with
    | error e => exact .inr (.inl ⟨rest, _, respond_eq_next_iff.mp ((step_of_illegal hp hd).symm.trans h)⟩)
    | ok i => exact .inr (.inr ⟨c, rest, i, rfl, hd, (step_of_legal hp hd).symm.trans h⟩)

/-! ### Runs of related states -/

/-- A relation that every pair of steps keeps, and that no step leaves stuck, is kept by runs of any length. -/
theorem run_related {R : State → State → Prop}
    (hstep : ∀ s t, R s t → ∃ s' t', step s = .next s' ∧ step t = .next t' ∧ R s' t') (k : Nat) {s t : State}
    (h : R s t) : ∃ s' t', core.run k s = .next s' ∧ core.run k t = .next t' ∧ R s' t' := by
  induction k generalizing s t with
  | zero => exact ⟨s, t, rfl, rfl, h⟩
  | succ k ih =>
    obtain ⟨s1, t1, hs, ht, h1⟩ := hstep s t h
    rw [core_run_succ hs, core_run_succ ht]
    exact ih h1

end Sys2Proof.Machine
end

section
/-! PROOF. `B` is an output only: no command reads it (10_state.md R27). -/

namespace Sys2Proof.Machine

theorem agreeButB_iff {s t : State} : AgreeButB s t ↔ ∃ b, t = s.setB b := by
  constructor
  · intro h
    cases s; cases t
    simp only [AgreeButB, SamePorts] at h
    obtain ⟨⟨rfl, rfl, rfl, rfl⟩, rfl, rfl, rfl, rfl, rfl, rfl⟩ := h
    exact ⟨_, rfl⟩
  · rintro ⟨b, rfl⟩
    exact ⟨⟨rfl, rfl, rfl, rfl⟩, rfl, rfl, rfl, rfl, rfl, rfl⟩

/-- The answers `x` and `y` go on to states that differ in `B` at most. -/
def AnswersAgreeButB (x y : Answer) : Prop := ∃ t b, x = .next t ∧ y = .next (t.setB b)

/-- Adding one response to states that differ in `B` at most keeps them so. -/
theorem respond_agreeButB (st : Status) (re : Reason) (x : Word) (s : State) (b : Bit) :
    AnswersAgreeButB (respond st re x s) (respond st re x (s.setB b)) := ⟨_, b, rfl, rfl⟩

theorem answersAgreeButB_of_respondOk {x y : Answer} {r : Word} {s : State} {b : Bit} (hx : x = respondOk r s)
    (hy : y = respondOk r (s.setB b)) : AnswersAgreeButB x y := by
  rw [hx, hy]; exact respond_agreeButB ..

/-- With an instance, the bit of `B` reaches neither RESULT nor any other field. -/
theorem exec_setB_of_valid {i : Instr} {s : State} (hi : i.isConstruction = false) (hv : s.valid = true) (b : Bit) :
    AnswersAgreeButB (exec i s) (exec i (s.setB b)) := by
  have hv' : (s.setB b).valid = true := hv
  cases i with
  | create | createGenpoly | createDefault => cases hi
  | destroy => exact answersAgreeButB_of_respondOk (exec_destroy_of_valid hv) (exec_destroy_of_valid hv')
  | advance =>
    exact answersAgreeButB_of_respondOk (b := feedbackBit s.g s.v) (exec_advance_of_valid hv)
      (exec_advance_of_valid hv')
  | gensym k =>
    exact answersAgreeButB_of_respondOk (b := lastBit s.g s.n k.toNat s.v b) (exec_gensym_of_valid hv k)
      (exec_gensym_of_valid hv' k)
  | reset => exact answersAgreeButB_of_respondOk (exec_reset_of_valid hv) (exec_reset_of_valid hv')
  | getM => exact answersAgreeButB_of_respondOk (exec_getM_of_valid hv) (exec_getM_of_valid hv')
  | getG => exact answersAgreeButB_of_respondOk (exec_getG_of_valid hv) (exec_getG_of_valid hv')
  | getN => exact answersAgreeButB_of_respondOk (exec_getN_of_valid hv) (exec_getN_of_valid hv')
  | getV => exact answersAgreeButB_of_respondOk (exec_getV_of_valid hv) (exec_getV_of_valid hv')
  | setState x => exact answersAgreeButB_of_respondOk (exec_setState_of_valid hv x) (exec_setState_of_valid hv' x)
  | fill =>
    exact answersAgreeButB_of_respondOk (b := lastBit s.g s.n s.n.toNat s.v b) (exec_fill_of_valid hv)
      (exec_fill_of_valid hv')
  | print => exact answersAgreeButB_of_respondOk (exec_print_of_valid hv) (exec_print_of_valid hv')

theorem exec_setB (i : Instr) (s : State) (b : Bit) : AnswersAgreeButB (exec i s) (exec i (s.setB b)) := by
  cases hi : i.isConstruction with
  | true =>
    obtain ⟨row, -, hf⟩ | ⟨reason, -, hf⟩ := exec_buildsOrRefuses hi
    · rw [hf, hf]; exact respond_agreeButB _ _ _ (s.construct row) row.b
    · rw [hf, hf]; exact respond_agreeButB ..
  | false =>
    cases hv : s.valid with
    | true => exact exec_setB_of_valid hi hv b
    | false => rw [exec_of_not_valid hi hv, exec_of_not_valid (s := s.setB b) hi hv]; exact respond_agreeButB ..

theorem step_setB (s : State) (b : Bit) : AnswersAgreeButB (step s) (step (s.setB b)) := by
  cases hp : s.pending with
  | nil => exact ⟨s, b, step_of_idle hp, step_of_idle hp⟩
  | cons c rest =>
    cases hd : decode c with
    | error e => rw [step_of_illegal hp hd, step_of_illegal (s := s.setB b) hp hd]; exact respond_agreeButB ..
    | ok i =>
      rw [step_of_legal hp hd, step_of_legal (s := s.setB b) hp hd]
      exact exec_setB i { s with pending := rest } b

/-- Settles O16: each step maps states that differ in `B` at most to such states, so every run does. -/
theorem lastOutputBitIsUnobservable : Obligations.LastOutputBitIsUnobservable := by
  intro k s t h
  refine run_related (fun s t h => ?_) k h
  obtain ⟨b, rfl⟩ := agreeButB_iff.mp h
  obtain ⟨s', b', hs, ht⟩ := step_setB s b
  exact ⟨s', s'.setB b', hs, ht, agreeButB_iff.mpr ⟨b', rfl⟩⟩

end Sys2Proof.Machine
end

section
/-! PROOF. What every step keeps: the fixed registers of an instance and the invariants (10_state.md R22, R26, R28). -/

namespace Sys2Proof.Machine

/-! ### The fixed registers -/

/-- Only a construction writes `M`, `G`, `A` and `N`. -/
theorem InstanceEffect.fixed {s u : State} {i : Instr} (h : InstanceEffect s i u) :
    u.m = s.m ∧ u.g = s.g ∧ u.a = s.a ∧ u.n = s.n := by
  cases h <;> exact ⟨rfl, rfl, rfl, rfl⟩

/-- With an instance only DESTROY writes `VALID`. -/
theorem InstanceEffect.valid_eq {s u : State} {i : Instr} (h : InstanceEffect s i u) (hi : i ≠ .destroy) :
    u.valid = s.valid := by
  cases h with
  | ended => exact absurd rfl hi
  | restored | written | ran | shown => rfl

/-- Settles O45: each effect a command other than CREATE* can have on an instance leaves the fixed registers alone. -/
theorem instanceIsFixedAfterConstruction : Obligations.InstanceIsFixedAfterConstruction := by
  intro i s t hi h
  obtain ⟨row, r, hc, -, -⟩ | ⟨r, rfl⟩ | ⟨u, r, -, -, hu, rfl⟩ := exec_cases h
  · rw [hi] at hc; cases hc
  · exact ⟨rfl, rfl, rfl, rfl, fun _ => rfl⟩
  · obtain ⟨hm, hg, ha, hn⟩ := hu.fixed
    exact ⟨hm, hg, ha, hn, hu.valid_eq⟩

/-! ### The instance invariant -/

theorem exec_preserves_inv {i : Instr} {s t : State} (hs : s.Inv) (h : exec i s = .next t) : t.Inv := by
  obtain ⟨row, r, -, hrow, rfl⟩ | ⟨r, rfl⟩ | ⟨u, r, -, hv, hu, rfl⟩ := exec_cases h
  · exact fun _ => ⟨hrow.two_le_m, hrow.m_le, hrow.n_eq, hrow.a_le⟩
  · exact hs
  · obtain ⟨hm, -, ha, hn⟩ := hu.fixed
    intro _
    simpa [hm, ha, hn] using hs hv

/-- Settles O47: an accepted command keeps the invariant, and an idle step or an illegal word changes no register. -/
theorem stepKeepsInstanceInvariant : Obligations.StepKeepsInstanceInvariant := by
  intro s t hs h
  obtain rfl | ⟨rest, r, rfl⟩ | ⟨c, rest, i, -, -, he⟩ := step_cases h
  · exact hs
  · exact hs
  · exact exec_preserves_inv (s := { s with pending := rest }) hs he

/-! ### The register within the period -/

theorem InstanceEffect.preserves_masked {s u : State} {i : Instr} (h : InstanceEffect s i u)
    (ha : s.a.toNat ≤ s.n.toNat) (hv : s.v.toNat ≤ s.n.toNat) (hi : ∀ x, i ≠ .setState x) : u.Masked := by
  cases h with
  | ended => exact fun hvalid => nomatch hvalid
  | restored => exact fun _ => ha
  | written x => exact absurd rfl (hi x)
  | ran => exact fun _ => registerAfter_le hv _
  | shown => exact fun _ => hv

theorem exec_preserves_masked {i : Instr} {s t : State} (hinv : s.Inv) (hs : s.Masked) (hi : ∀ x, i ≠ .setState x)
    (h : exec i s = .next t) : t.Masked := by
  obtain ⟨row, r, -, hrow, rfl⟩ | ⟨r, rfl⟩ | ⟨u, r, -, hv, hu, rfl⟩ := exec_cases h
  · intro _
    show row.v.toNat ≤ row.n.toNat
    rw [hrow.v_eq]; exact hrow.a_le
  · exact hs
  · obtain ⟨-, -, -, ha⟩ := hinv hv
    exact hu.preserves_masked ha (hs hv) hi

/-- Settles O48: RESET loads `A ≤ N`, a construction writes `V` with `A`, and every `advance()` masks with `N`. -/
theorem stepKeepsRegisterMasked : Obligations.StepKeepsRegisterMasked := by
  intro s t hinv hs hset h
  obtain rfl | ⟨rest, r, rfl⟩ | ⟨c, rest, i, hp, hd, he⟩ := step_cases h
  · exact hs
  · exact hs
  · refine exec_preserves_masked (s := { s with pending := rest }) hinv hs (fun x hx => ?_) he
    exact hset c rest x hp (hx ▸ hd)

/-- Settles O49: after reset `VALID` is 0 and nothing has been answered. -/
theorem powerOnMeetsInvariants : Obligations.PowerOnMeetsInvariants :=
  ⟨nofun, nofun, rfl⟩

end Sys2Proof.Machine
end

section
/-! PROOF. The form of the default table (10_state.md R23, R30). -/

namespace Sys2Proof.Machine

/-- Without the top tap the canonical state is shifted out: nothing is fed back and the one set bit leaves the register. -/
theorem nextRegister_canonicalState_of_top_tap_clear {m : Nat} (h1 : 1 ≤ m) (h : m < 32) {g : Word}
    (hg : g.getLsbD (m - 1) = false) : nextRegister g (ones m) (canonicalState m) = 0#32 := by
  have hfb : feedbackBit g (canonicalState m) = false := by
    have hand : canonicalState m &&& g = 0#32 := by
      refine BitVec.eq_of_getLsbD_eq fun j _ => ?_
      rw [BitVec.getLsbD_and, getLsbD_canonicalState h1 (by omega), BitVec.getLsbD_zero]
      by_cases hj : j = m - 1
      · rw [hj, hg, Bool.and_false]
      · rw [decide_eq_false hj, Bool.false_and]
    rw [feedbackBit, hand, parity_zero]
  refine BitVec.eq_of_getLsbD_eq fun j _ => ?_
  rw [nextRegister, hfb, getLsbD_shiftIn, getLsbD_canonicalState h1 (by omega), getLsbD_ones h, BitVec.getLsbD_zero]
  simp only [Bool.and_eq_false_iff, decide_eq_false_iff_not]
  by_cases hj : j = 0
  · simp [hj]
  · simp [hj]; omega

/-- A polynomial that brings the canonical state back taps the top bit of the register. -/
theorem getLsbD_top_of_isTabulable {m : Nat} (h2 : 2 ≤ m) (h : m < 32) {g : Word} (hg : isTabulable m g = true) :
    g.getLsbD (m - 1) = true := by
  obtain ⟨-, hback, -⟩ := (isTabulable_iff m g).mp hg
  by_contra htop
  have hlen : 2 ^ m - 1 = 1 + (2 ^ m - 2) := by
    have : 2 ^ 1 < 2 ^ m := Nat.pow_lt_pow_right (by omega) (by omega)
    omega
  have hzero : canonicalState m = 0#32 := by
    rw [hlen, registerAfter_add, registerAfter_succ, registerAfter_zero,
      nextRegister_canonicalState_of_top_tap_clear (by omega) h (by simpa using htop), registerAfter_of_zero] at hback
    exact hback.symm
  have hpos := toNat_canonicalState (m := m) (by omega)
  rw [hzero] at hpos
  exact absurd hpos (Nat.two_pow_pos _).ne

/-- Settles O21: row 2 is fixed, and every polynomial the table may hold fits in `m` bits and taps the top one. -/
theorem defaultTableForm : Obligations.DefaultTableForm := by
  refine ⟨rfl, fun m h2 h15 => ?_⟩
  have hg : isTabulable m (tablePolynomial m) = true := tablePolynomial_isTabulable h2 h15
  exact ⟨toNat_tableRead_m (by omega), toNat_ones (by omega), toNat_canonicalState (by omega), rfl, rfl,
    ((isTabulable_iff m _).mp hg).1, getLsbD_top_of_isTabulable h2 (by omega) hg⟩

end Sys2Proof.Machine
end

section
/-! PROOF. Commands take effect one at a time, in the order the port accepts them, and seven of them write the same
registers again when repeated (20_memory.md R48, R49). -/

namespace Sys2Proof.Machine

/-- Settles O7: the port moves past the command it accepts, and the command runs. -/
theorem stepRunsTheDecodedCommand : Obligations.StepRunsTheDecodedCommand :=
  fun _ _ _ _ => step_of_legal

/-! ### A command that is held -/

/-- The answers `x` and `y` go on to states that differ only in that `y`'s also holds `c`, presented last. -/
def AnswersAgreeButHeld (c : Command) (x y : Answer) : Prop := ∃ t : State, x = .next t ∧ y = .next (t.submit c)

/-- Adding one response neither looks at the commands presented nor moves them. -/
theorem respond_agreeButHeld (st : Status) (re : Reason) (x : Word) (s : State) (c : Command) :
    AnswersAgreeButHeld c (respond st re x s) (respond st re x (s.submit c)) := ⟨_, rfl, rfl⟩

/-- With an instance, a command neither reads the commands presented after it nor changes them. -/
theorem exec_submit_of_valid {i : Instr} {s : State} (hi : i.isConstruction = false) (hv : s.valid = true) (c : Command) :
    AnswersAgreeButHeld c (exec i s) (exec i (s.submit c)) := by
  have hv' : (s.submit c).valid = true := hv
  cases i with
  | create | createGenpoly | createDefault => cases hi
  | destroy => exact ⟨_, exec_destroy_of_valid hv, exec_destroy_of_valid hv'⟩
  | advance => exact ⟨_, exec_advance_of_valid hv, exec_advance_of_valid hv'⟩
  | gensym k => exact ⟨_, exec_gensym_of_valid hv k, exec_gensym_of_valid hv' k⟩
  | reset => exact ⟨_, exec_reset_of_valid hv, exec_reset_of_valid hv'⟩
  | getM => exact ⟨_, exec_getM_of_valid hv, exec_getM_of_valid hv'⟩
  | getG => exact ⟨_, exec_getG_of_valid hv, exec_getG_of_valid hv'⟩
  | getN => exact ⟨_, exec_getN_of_valid hv, exec_getN_of_valid hv'⟩
  | getV => exact ⟨_, exec_getV_of_valid hv, exec_getV_of_valid hv'⟩
  | setState x => exact ⟨_, exec_setState_of_valid hv x, exec_setState_of_valid hv' x⟩
  | fill => exact ⟨_, exec_fill_of_valid hv, exec_fill_of_valid hv'⟩
  | print => exact ⟨_, exec_print_of_valid hv, exec_print_of_valid hv'⟩

theorem exec_submit (i : Instr) (s : State) (c : Command) :
    AnswersAgreeButHeld c (exec i s) (exec i (s.submit c)) := by
  cases hi : i.isConstruction with
  | true =>
    obtain ⟨row, -, hf⟩ | ⟨reason, -, hf⟩ := exec_buildsOrRefuses hi
    · rw [hf, hf]; exact respond_agreeButHeld _ _ _ (s.construct row) c
    · rw [hf, hf]; exact respond_agreeButHeld ..
  | false =>
    cases hv : s.valid with
    | true => exact exec_submit_of_valid hi hv c
    | false => rw [exec_of_not_valid hi hv, exec_of_not_valid (s := s.submit c) hi hv]; exact respond_agreeButHeld ..

/-- While the port is not empty, the step accepts the earlier command and leaves `c` held behind the others. -/
theorem step_submit {s : State} (h : s.pending ≠ []) (c : Command) :
    AnswersAgreeButHeld c (step s) (step (s.submit c)) := by
  obtain ⟨c₀, rest, hp⟩ := List.exists_cons_of_ne_nil h
  have hp' : (s.submit c).pending = c₀ :: (rest ++ [c]) := congrArg (· ++ [c]) hp
  cases hd : decode c₀ with
  | error e =>
    rw [step_of_illegal hp hd, step_of_illegal hp' hd]
    exact respond_agreeButHeld _ _ _ { s with pending := rest } c
  | ok i =>
    rw [step_of_legal hp hd, step_of_legal hp' hd]
    exact exec_submit i { s with pending := rest } c

/-- Settles O12: no step looks past the command it accepts. -/
theorem laterCommandsAreHeld : Obligations.LaterCommandsAreHeld := by
  intro s t c hne ht
  obtain ⟨t', hs, hheld⟩ := step_submit hne c
  obtain rfl : t' = t := Host.Outcome.next.inj (hs.symm.trans ht)
  exact hheld

/-! ### A command that is repeated -/

/-- Settles O46: with an instance the second run loads `V` with the word the first one did, or no register at all;
without one both runs answer NO_INSTANCE. -/
theorem repeatingLeavesTheSameRegisters : Obligations.RepeatingLeavesTheSameRegisters := by
  intro i s hi
  cases hv : s.valid with
  | true =>
    obtain rfl | rfl | rfl | rfl | rfl | rfl | ⟨x, rfl⟩ := hi
    · exact ⟨_, _, exec_getM_of_valid hv, exec_getM_of_valid hv, rfl⟩
    · exact ⟨_, _, exec_getG_of_valid hv, exec_getG_of_valid hv, rfl⟩
    · exact ⟨_, _, exec_getN_of_valid hv, exec_getN_of_valid hv, rfl⟩
    · exact ⟨_, _, exec_getV_of_valid hv, exec_getV_of_valid hv, rfl⟩
    · exact ⟨_, _, exec_print_of_valid hv, exec_print_of_valid hv, rfl⟩
    · exact ⟨_, _, exec_reset_of_valid hv, exec_reset_of_valid hv, rfl⟩
    · exact ⟨_, _, exec_setState_of_valid hv x, exec_setState_of_valid (s := (s.setV x).addResponse _) hv x, rfl⟩
  | false =>
    have hi : i.isConstruction = false := by
      obtain rfl | rfl | rfl | rfl | rfl | rfl | ⟨x, rfl⟩ := hi <;> rfl
    exact ⟨_, _, exec_of_not_valid hi hv, exec_of_not_valid hi hv, rfl⟩

end Sys2Proof.Machine
end

section
/-! PROOF. The decoder inverts the encoder, refuses the reserved command words and no others, and reads only the operand
words its command uses; the assembler writes the encoder's words (30_encoding.md R61 to R71). -/

namespace Sys2Proof.Machine

/-! ### What the decoder can do -/

/-- The operand words of `c` that a command with as many operands as `i` uses are those `i` carries (R63). -/
def CarriesOperands (c : Command) (i : Instr) : Prop := i.operands = [c.arg0, c.arg1, c.arg2].take i.operands.length

theorem encode_carriesOperands (i : Instr) : CarriesOperands (encode i) i := by cases i <;> rfl

theorem toNat_opcode_le (i : Instr) : (opcode i).toNat ≤ 0xD := (Command.wf_iff (encode i)).mp (encode_wf i)

/-- The operation field alone gives the command of its row, or is one of the two reserved operations (R62, R65). -/
theorem decodeOp_cases (c : Command) :
    (∃ i, decodeOp c = .ok i ∧ c.op.toNat = (opcode i).toNat ∧ CarriesOperands c i) ∨
    0xE ≤ c.op.toNat ∧ decodeOp c = .error .reservedOpcode := by
  unfold decodeOp
  split
  case h_15 => exact .inr ⟨by grind, rfl⟩
  all_goals exact .inl ⟨_, rfl, ‹_›, rfl⟩

/-- The decoder gives a command its own word and operands, or refuses the word on one ground of R65. -/
theorem decode_cases (c : Command) :
    (∃ i, decode c = .ok i ∧ c.cmd = opcode i ∧ CarriesOperands c i) ∨
    (c.cmd = 0xE ∨ c.cmd = 0xF) ∧ decode c = .error .reservedOpcode ∨
    16 ≤ c.cmd.toNat ∧ decode c = .error .reservedBits := by
  rcases Nat.lt_or_ge c.cmd.toNat 16 with hlt | hge
  · have hop : c.op.toNat = c.cmd.toNat := c.toNat_op.trans (Nat.mod_eq_of_lt hlt)
    rw [decode_of_lt hlt]
    obtain ⟨i, hd, hi, ho⟩ | ⟨hE, hd⟩ := decodeOp_cases c
    · exact .inl ⟨i, hd, BitVec.eq_of_toNat_eq (hop.symm.trans hi), ho⟩
    · exact .inr (.inl ⟨by bv_omega, hd⟩)
  · exact .inr (.inr ⟨hge, decode_of_ge hge⟩)

/-- Each row of the opcode map decodes to its command, whatever the operand words it ignores (R62, R63). -/
theorem decodeOp_of_opcode {c : Command} {i : Instr} (hop : c.op.toNat = (opcode i).toNat) (ho : CarriesOperands c i) :
    decodeOp c = .ok i := by
  rw [decodeOp, hop]
  cases i <;> cases ho <;> rfl

theorem decode_of_opcode {c : Command} {i : Instr} (hc : c.cmd = opcode i) (ho : CarriesOperands c i) :
    decode c = .ok i := by
  have hle : c.cmd.toNat ≤ 0xD := hc ▸ toNat_opcode_le i
  rw [decode_of_lt (by omega)]
  refine decodeOp_of_opcode ?_ ho
  rw [Command.toNat_op, Nat.mod_eq_of_lt (by omega), hc]

theorem decode_encode (i : Instr) : decode (encode i) = .ok i := decode_of_opcode rfl (encode_carriesOperands i)

theorem decode_eq_ok_iff {c : Command} {i : Instr} : decode c = .ok i ↔ c.cmd = opcode i ∧ CarriesOperands c i := by
  refine ⟨fun h => ?_, fun ⟨hc, ho⟩ => decode_of_opcode hc ho⟩
  obtain ⟨j, hd, hj⟩ | ⟨-, hd⟩ | ⟨-, hd⟩ := decode_cases c
  · obtain rfl : j = i := Except.ok.inj (hd.symm.trans h)
    exact hj
  · cases hd.symm.trans h
  · cases hd.symm.trans h

/-- Settles O1: the decoder gives `i` exactly for the words of `i`, and the encoding of `i` is one case of them. -/
theorem decodeInvertsEncode : Obligations.DecodeInvertsEncode :=
  ⟨decode_encode, fun _ _ => decode_eq_ok_iff⟩

/-- Settles O2: the three outcomes of decoding exclude one another, and so do the words they are for. -/
theorem decoderRefusesExactlyReservedWords : Obligations.DecoderRefusesExactlyReservedWords := by
  intro c
  obtain ⟨i, hd, hc, -⟩ | ⟨hc, hd⟩ | ⟨hc, hd⟩ := decode_cases c
  · have hle := toNat_opcode_le i
    rw [← hc] at hle
    rw [hd]
    exact ⟨⟨nofun, fun _ => by omega⟩, ⟨nofun, fun _ => by bv_omega⟩, ⟨fun _ => hle, fun _ => ⟨i, rfl⟩⟩⟩
  · rw [hd]
    exact ⟨⟨nofun, fun _ => by bv_omega⟩, ⟨fun _ => hc, fun _ => rfl⟩, ⟨nofun, fun _ => by bv_omega⟩⟩
  · rw [hd]
    exact ⟨⟨fun _ => hc, fun _ => rfl⟩, ⟨nofun, fun _ => by bv_omega⟩, ⟨nofun, fun _ => by omega⟩⟩

/-! ### The step -/

/-- Settles O5: both commands decode to `i`, and the step reads the words through the decoder only. -/
theorem ignoredOperandsHaveNoEffect : Obligations.IgnoredOperandsHaveNoEffect := by
  intro s c c' i hd hcmd hargs
  obtain ⟨hc, ho⟩ := decode_eq_ok_iff.mp hd
  have hd' : decode c' = .ok i := decode_of_opcode (hcmd.trans hc) (ho.trans hargs.symm)
  exact (step_of_legal (State.present_pending s c') hd').trans (step_of_legal (State.present_pending s c) hd).symm

theorem recordedFaults_addResponse (s : State) (r : Response) :
    (s.addResponse r).recordedFaults = s.recordedFaults ++ r.fault?.toList := by
  rw [State.recordedFaults, State.addResponse_responses, List.filterMap_append]
  cases h : r.fault? <;> simp [State.recordedFaults, h]

/-- Settles O9: a reserved word does not decode, and the port rejects it before anything else is read. -/
theorem illegalCommandIsRejected : Obligations.IllegalCommandIsRejected := by
  intro s c rest hp hc
  obtain ⟨hbits, hop, -⟩ := decoderRefusesExactlyReservedWords c
  obtain ⟨e, hd⟩ : ∃ e, decode c = .error e := hc.elim (⟨_, hbits.mpr ·⟩) (⟨_, hop.mpr ·⟩)
  exact ⟨_, step_of_illegal hp hd, rfl, recordedFaults_addResponse ..⟩

/-! ### The assembler -/

/-- The assembler's table agrees with the opcode map row by row (R62). -/
theorem asmTable_find_mnemonic (i : Instr) :
    asmTable.find? (fun row => row.1 == i.mnemonic) = some (i.mnemonic, i.operands.length, opcode i) := by
  cases i <;> rfl

theorem assembleStatement_wrong_count {i : Instr} {ops : List Nat} (h : ops.length ≠ i.operands.length) :
    assembleStatement i.mnemonic ops = .error .wrongOperandCount := by
  simp only [assembleStatement, asmTable_find_mnemonic, if_pos h]

theorem ofNat_getD_map_toNat (l : List Word) (k : Nat) : BitVec.ofNat 32 ((l.map BitVec.toNat).getD k 0) = l.getD k 0 := by
  rw [show (0 : Nat) = BitVec.toNat (0 : Word) from rfl, List.getD_map, BitVec.ofNat_toNat, BitVec.setWidth_eq]

theorem assembleStatement_operands (i : Instr) :
    assembleStatement i.mnemonic (i.operands.map BitVec.toNat) = .ok (encode i) := by
  have hcount : ¬(i.operands.map BitVec.toNat).length ≠ i.operands.length := by simp
  have hfit : ¬((i.operands.map BitVec.toNat).any fun x => decide (2 ^ 32 ≤ x)) = true := by
    simpa using fun x _ => x.isLt
  simp only [assembleStatement, asmTable_find_mnemonic, if_neg hcount, if_neg hfit, ofNat_getD_map_toNat]
  rfl

/-- Settles O4: the table has one row per command, with its operand count and opcode, and SKIP's row is GENSYM's. -/
theorem assemblerAgreesWithEncoder : Obligations.AssemblerAgreesWithEncoder :=
  ⟨assembleStatement_operands, fun _ _ => assembleStatement_wrong_count, fun _ => rfl⟩

/-- What a statement assembles to decodes to the command it names. -/
theorem assembleStatement_decode (i : Instr) :
    assembleStatement i.mnemonic (i.operands.map BitVec.toNat) = .ok (encode i) ∧ decode (encode i) = .ok i :=
  ⟨assembleStatement_operands i, decode_encode i⟩

/-- Settles O3: each example is one command's round trip through the assembler and the decoder. -/
theorem exampleEncodings : Obligations.ExampleEncodings :=
  ⟨assembleStatement_decode (.create 4 0x13 1), assembleStatement_decode (.createGenpoly 0xB),
    assembleStatement_decode (.createDefault 2), assembleStatement_decode .advance,
    assembleStatement_decode (.gensym 8), assembleStatement_decode (.setState 0)⟩

/-! ### The packed status word -/

/-- The two codes stand side by side, STATUS in bits 1:0 and REASON in bits 3:2 (R66). -/
theorem toNat_rsp (r : Response) : r.rsp.toNat = r.reason.code.toNat * 4 + r.status.code.toNat := by
  have hstatus : r.status.code.toNat < 2 ^ 2 := r.status.code.isLt
  have hreason : r.reason.code.toNat < 2 ^ 2 := r.reason.code.isLt
  rw [Response.rsp, BitVec.toNat_or, BitVec.toNat_shiftLeft, BitVec.toNat_setWidth_of_le (by omega),
    BitVec.toNat_setWidth_of_le (by omega), Nat.mod_eq_of_lt (by rw [Nat.shiftLeft_eq]; omega),
    ← Nat.shiftLeft_add_eq_or_of_lt hstatus, Nat.shiftLeft_eq]

/-- Settles O6: the packed word is the two codes of the table side by side. -/
theorem packedStatusWord : Obligations.PackedStatusWord :=
  fun _ => ⟨toNat_rsp _, toNat_rsp _, toNat_rsp _, toNat_rsp _, toNat_rsp _, toNat_rsp _⟩

end Sys2Proof.Machine
end

section
/-! PROOF. Construction is all or nothing, and the three CREATE commands leave the same instance where their operands describe
the same one; DESTROY ends it (40_construction.md R80 to R88). -/

namespace Sys2Proof.Machine

/-! ### What each construction answers -/

section
variable {m : Word} (s : State)

theorem exec_create_of_length (h : 2 ≤ m.toNat ∧ m.toNat ≤ 31) (g a : Word) :
    exec (.create m g a) s = respondOk 0 (s.construct (explicitRow m g a)) := if_pos ((lengthOk_iff m).mpr h)

theorem exec_create_of_not_length (h : ¬(2 ≤ m.toNat ∧ m.toNat ≤ 31)) (g a : Word) :
    exec (.create m g a) s = raiseConfigurationError .lengthRange s := if_neg (mt (lengthOk_iff m).mp h)

theorem exec_createDefault_of_length (h : 2 ≤ m.toNat ∧ m.toNat ≤ 15) :
    exec (.createDefault m) s = respondOk 0 (s.construct (tableRead m.toNat)) := if_pos ((defaultLengthOk_iff m).mpr h)

theorem exec_createDefault_of_not_length (h : ¬(2 ≤ m.toNat ∧ m.toNat ≤ 15)) :
    exec (.createDefault m) s = raiseConfigurationError .defaultRange s := if_neg (mt (defaultLengthOk_iff m).mp h)

theorem exec_createGenpoly_of_degenerate {g : Word} (h : bitlen g < 2) :
    exec (.createGenpoly g) s = raiseConfigurationError .polyDegenerate s := if_pos h

/-- A polynomial that is not degenerate goes the explicit path (R83). -/
theorem exec_createGenpoly_of_two_le {g : Word} (h : 2 ≤ bitlen g) :
    exec (.createGenpoly g) s = exec (.create (derivedLength g) g 1) s := if_neg (Nat.not_lt.mpr h)

end

/-! ### The values written -/

theorem bitlen_eq {g : Word} {t : Nat} (hle : 2 ^ t ≤ g.toNat) (hlt : g.toNat < 2 ^ (t + 1)) : bitlen g = t + 1 := by
  have hlow := (le_bitlen_iff g t).mpr hle
  have hhigh := mt (le_bitlen_iff g (t + 1)).mp (by omega)
  omega

theorem derivedLength_of_bitlen {g : Word} {t : Nat} (h : bitlen g = t + 1) : derivedLength g = BitVec.ofNat 32 t := by
  rw [derivedLength, h, Nat.add_sub_cancel]

theorem ones_eq_ofNat {m : Nat} (h : m < 32) : ones m = BitVec.ofNat 32 (2 ^ m - 1) := by
  rw [← toNat_ones h, BitVec.ofNat_toNat, BitVec.setWidth_eq]

theorem canonicalState_eq_ofNat {m : Nat} (h : m ≤ 32) : canonicalState m = BitVec.ofNat 32 (2 ^ (m - 1)) := by
  rw [← toNat_canonicalState h, BitVec.ofNat_toNat, BitVec.setWidth_eq]

/-- The reversal reads no bit of the operand from `m` on (R81). -/
theorem rev_congr {m : Nat} (h : m ≤ 32) {a a' : Word} (ha : ∀ i < m, a'.getLsbD i = a.getLsbD i) : rev m a' = rev m a := by
  refine BitVec.eq_of_getLsbD_eq fun j _ => ?_
  rw [getLsbD_rev h, getLsbD_rev h]
  by_cases hj : j < m
  · rw [ha _ (by omega)]
  · simp [hj]

/-- The conventional form of a polynomial that leaves the top bit free gives its stored form back (R82). -/
theorem storedForm_conventional {g : Word} (h : g.toNat < 2 ^ 31) : storedForm ((g <<< 1) ||| 1) = g := by
  have hkept : g.toNat <<< 1 < 2 ^ 32 := by rw [Nat.shiftLeft_eq]; omega
  have hword : ((g <<< 1) ||| 1).toNat = 2 * g.toNat + 1 := by
    rw [BitVec.toNat_or, BitVec.toNat_shiftLeft, Nat.mod_eq_of_lt hkept]
    exact (Nat.shiftLeft_add_eq_or_of_lt (by decide) _).symm.trans (by rw [Nat.shiftLeft_eq]; simp [Nat.mul_comm])
  refine BitVec.eq_of_toNat_eq ?_
  rw [storedForm, BitVec.toNat_ushiftRight, hword, Nat.shiftRight_eq_div_pow]
  omega

/-- With the initial state 1 the explicit path writes the table row of its length, but for the polynomial (R83, R87). -/
theorem explicitRow_one {m : Word} (h1 : 1 ≤ m.toNat) (h32 : m.toNat ≤ 32) (g : Word) :
    explicitRow m g 1 = { tableRead m.toNat with g := storedForm g } := by
  simp only [explicitRow, tableRead, rev_one h1 h32, canonicalState, BitVec.ofNat_toNat, BitVec.setWidth_eq]

/-! ### CREATE -/

/-- Settles O17: the length check decides, and reads no other operand. -/
theorem createEffect : Obligations.CreateEffect :=
  ⟨fun _ _ _ => decode_of_opcode rfl rfl, fun _ g a s =>
    ⟨fun h => exec_create_of_length s h g a, fun h => exec_create_of_not_length s h g a⟩⟩

/-- Settles O18: bit `i` of the operand is bit `m - 1 - i` of `A`, and nothing else of the operand is read. -/
theorem initialStateIsReversed : Obligations.InitialStateIsReversed := by
  refine ⟨fun m g a s h2 h31 => ⟨_, exec_create_of_length s ⟨h2, h31⟩ g a, rfl, ?_, ?_, ?_⟩, by decide⟩
  · intro i hi
    have hback : m.toNat - 1 - (m.toNat - 1 - i) = i := by omega
    refine (getLsbD_rev (by omega) a _).trans ?_
    rw [hback, decide_eq_true (by omega), Bool.true_and]
  · intro i hi
    refine (getLsbD_rev (by omega) a i).trans ?_
    rw [decide_eq_false (by omega), Bool.false_and]
  · intro a' ha
    have hrow : explicitRow m g a' = explicitRow m g a := by rw [explicitRow, rev_congr (by omega) ha, explicitRow]
    rw [exec_create_of_length s ⟨h2, h31⟩, hrow, respondOk_eq_next]

/-! ### CREATE_GENPOLY -/

/-- Settles O24: three bits or more are not degenerate. -/
theorem createGenpolyMatchesCreate : Obligations.CreateGenpolyMatchesCreate :=
  fun _ s h => exec_createGenpoly_of_two_le s (by omega)

/-- A polynomial of degree `m` takes the explicit path with length `m` (R83). -/
theorem exec_createGenpoly_of_degree {g : Word} {m : Nat} (h1 : 1 ≤ m) (hle : 2 ^ m ≤ g.toNat) (hlt : g.toNat < 2 ^ (m + 1))
    (s : State) : exec (.createGenpoly g) s = exec (.create (BitVec.ofNat 32 m) g 1) s := by
  have hlen : bitlen g = m + 1 := bitlen_eq hle hlt
  rw [exec_createGenpoly_of_two_le s (by omega), derivedLength_of_bitlen hlen]

/-- Settles O19: 0 and 1 have fewer than two bits, 2 and 3 have degree 1, and every other `g` has a degree in 2..31. -/
theorem createGenpolyEffect : Obligations.CreateGenpolyEffect := by
  refine ⟨fun _ _ _ => decode_of_opcode rfl rfl, fun g s => ⟨fun hg => ?_, fun hg => ?_, fun m h2 hle hlt => ?_⟩⟩
  · have hlen : ¬2 ≤ bitlen g := mt (le_bitlen_iff g 1).mp (by omega)
    exact exec_createGenpoly_of_degenerate s (by omega)
  · rw [exec_createGenpoly_of_degree (m := 1) (Nat.le_refl 1) (by omega) (by omega), exec_create_of_not_length s (by decide)]
    rfl
  · have h32 : m < 32 := (Nat.pow_lt_pow_iff_right (by decide)).mp (Nat.lt_of_le_of_lt hle g.isLt)
    have hm : (BitVec.ofNat 32 m).toNat = m := toNat_tableRead_m h32
    rw [exec_createGenpoly_of_degree (by omega) hle hlt, exec_create_of_length s (by omega), explicitRow_one (by omega) (by omega),
      hm, ← canonicalState_eq_ofNat (by omega), ← ones_eq_ofNat h32]
    rfl

/-! ### CREATE_DEFAULT -/

/-- Settles O20: the length check decides, and the row is copied whole. -/
theorem createDefaultEffect : Obligations.CreateDefaultEffect :=
  ⟨fun _ _ _ => decode_of_opcode rfl rfl, fun _ s =>
    ⟨exec_createDefault_of_length s, exec_createDefault_of_not_length s⟩⟩

/-- Settles O23: the row's polynomial fits in `m ≤ 15` bits, so its conventional form loses none of them. -/
theorem createDefaultMatchesCreate : Obligations.CreateDefaultMatchesCreate := by
  intro m s h2 h15
  have hfit : (tableRead m.toNat).g.toNat < 2 ^ m.toNat := ((isTabulable_iff _ _).mp (tablePolynomial_isTabulable h2 h15)).1
  have hpow : 2 ^ m.toNat ≤ 2 ^ 31 := Nat.pow_le_pow_right (by decide) (by omega)
  rw [exec_createDefault_of_length s ⟨h2, h15⟩, exec_create_of_length s (by omega), explicitRow_one (by omega) (by omega),
    storedForm_conventional (Nat.lt_of_lt_of_le hfit hpow)]

/-! ### All or nothing, and DESTROY -/

/-- Settles O22: a construction writes one row, the same from every state, or answers a configuration error. -/
theorem constructionIsAllOrNothing : Obligations.ConstructionIsAllOrNothing := by
  intro i s hi
  obtain ⟨row, -, hbuilds⟩ | ⟨reason, hreason, hrefuses⟩ := exec_buildsOrRefuses hi
  · exact .inl ⟨row, hbuilds⟩
  · exact .inr ⟨reason, hreason, hrefuses s⟩

/-- Settles O25: with an instance DESTROY writes `VALID` alone, and without one it is rejected. -/
theorem destroyEffect : Obligations.DestroyEffect :=
  ⟨fun _ _ _ => decode_of_opcode rfl rfl, fun _ => ⟨exec_destroy_of_valid, exec_of_not_valid rfl⟩⟩

end Sys2Proof.Machine
end

section
/-! SUPPORT. A register within the period: its output bit, its step bit by bit, its earlier results, and ADVANCE commands in a
row (41_advancement.md R100 to R109). -/

namespace Sys2Proof.Machine

/-! ### A register within the period -/

/-- With an instance, `N` is the mask of the register's `M` bits (10_state.md R25, R28). -/
theorem n_eq_ones_of_inv {s : State} (hinv : s.Inv) (hv : s.valid = true) : s.n = ones s.m.toNat := by
  obtain ⟨-, h31, hn, -⟩ := hinv hv
  exact BitVec.eq_of_toNat_eq (hn.trans (toNat_ones (by omega)).symm)

/-- The mask leaves a register that fits it as it is. -/
theorem and_ones_of_le {m : Nat} (h : m < 32) {v : Word} (hv : v.toNat ≤ (ones m).toNat) : v &&& ones m = v := by
  have hpos : 0 < 2 ^ m := Nat.two_pow_pos m
  rw [toNat_ones h] at hv
  refine BitVec.eq_of_toNat_eq ?_
  rw [toNat_and_ones h, Nat.mod_eq_of_lt (by omega)]

/-- A register within the period meets no tap outside it (R102). -/
theorem feedbackBit_of_le {m : Nat} (h : m < 32) {v : Word} (hv : v.toNat ≤ (ones m).toNat) (g : Word) :
    feedbackBit g v = feedbackBit (g &&& ones m) v := by
  rw [feedbackBit, feedbackBit, BitVec.and_comm g, ← BitVec.and_assoc, and_ones_of_le h hv]

/-- The output bit of a register within the period is the XOR of its tapped bits below `M` (R109). -/
theorem feedbackBit_eq_xorBelow_of_le {m : Nat} (h : m < 32) {v : Word} (hv : v.toNat ≤ (ones m).toNat) (g : Word) :
    feedbackBit g v = xorBelow m fun j => g.getLsbD j && v.getLsbD j := by
  have hout : ∀ j, m ≤ j → (v.getLsbD j && (g &&& ones m).getLsbD j) = false := fun j hj => by
    rw [BitVec.getLsbD_and, getLsbD_ones h, decide_eq_false (by omega), Bool.and_false, Bool.and_false]
  rw [feedbackBit_of_le h hv, feedbackBit_eq_xorBelow, xorBelow_of_false hout (by omega)]
  refine xorBelow_congr fun j hj => ?_
  rw [BitVec.getLsbD_and, getLsbD_ones h, decide_eq_true hj, Bool.and_true, Bool.and_comm]

/-! ### One step under the mask -/

section
variable {m : Nat} (h : m < 32) (v : Word) (b : Bit)
include h

theorem getLsbD_zero_shiftIn_ones (hm : 0 < m) : (shiftIn (ones m) v b).getLsbD 0 = b := by
  rw [getLsbD_shiftIn, if_pos rfl, getLsbD_ones h, decide_eq_true hm, Bool.and_true]

theorem getLsbD_succ_shiftIn_ones {j : Nat} (hj : j + 1 < m) : (shiftIn (ones m) v b).getLsbD (j + 1) = v.getLsbD j := by
  rw [getLsbD_shiftIn, if_neg (Nat.succ_ne_zero j), getLsbD_ones h, decide_eq_true hj, decide_eq_true (by omega),
    Bool.true_and, Bool.and_true, Nat.add_sub_cancel]

theorem getLsbD_shiftIn_ones_of_ge {j : Nat} (hj : m ≤ j) : (shiftIn (ones m) v b).getLsbD j = false := by
  rw [getLsbD_shiftIn, getLsbD_ones h, decide_eq_false (show ¬j < m by omega), Bool.and_false]

/-- A register that a step leaves as it is holds the bit that came in at every place (R108). -/
theorem getLsbD_of_shiftIn_ones_eq {v : Word} {b : Bit} (heq : shiftIn (ones m) v b = v) (j : Nat) :
    v.getLsbD j = (b && decide (j < m)) := by
  rcases Nat.lt_or_ge j m with hj | hj
  · rw [decide_eq_true hj, Bool.and_true]
    induction j with
    | zero => rw [← heq, getLsbD_zero_shiftIn_ones h v b hj]
    | succ j ih => rw [← ih (by omega), ← getLsbD_succ_shiftIn_ones h v b hj, heq]
  · rw [← heq, getLsbD_shiftIn_ones_of_ge h v b hj, decide_eq_false (by omega), Bool.and_false]

/-- Only the all-zero and the all-ones register can be left as they are, each by its own bit (R108). -/
theorem eq_zero_or_ones_of_shiftIn_ones_eq {v : Word} {b : Bit} (heq : shiftIn (ones m) v b = v) :
    v = 0#32 ∨ v = ones m ∧ b = true := by
  have hbits := getLsbD_of_shiftIn_ones_eq h heq
  cases b with
  | false => exact .inl (BitVec.eq_of_getLsbD_eq fun j _ => ((hbits j).trans (Bool.false_and _)).trans BitVec.getLsbD_zero.symm)
  | true =>
    refine .inr ⟨BitVec.eq_of_getLsbD_eq fun j _ => ?_, rfl⟩
    rw [hbits, Bool.true_and, getLsbD_ones h]

/-- A 1 shifted into all ones leaves them (R108). -/
theorem shiftIn_ones_ones_true : shiftIn (ones m) (ones m) true = ones m := by
  refine BitVec.eq_of_getLsbD_eq fun j hj => ?_
  rw [getLsbD_shiftIn, getLsbD_ones h, getLsbD_ones h]
  by_cases h0 : j = 0
  · simp [h0]
  · simp [h0]; omega

/-- A 0 shifted into all ones clears bit 0 alone (R108). -/
theorem shiftIn_ones_ones_false (hm : 0 < m) : shiftIn (ones m) (ones m) false = ones m - 1 := by
  have hpow : 2 ^ 1 ≤ 2 ^ m := Nat.pow_le_pow_right (by decide) hm
  have hnat : (ones m - 1).toNat = 2 ^ m - (1 + 1) := by
    rw [BitVec.toNat_sub_of_le (BitVec.le_def.mpr (by rw [toNat_ones h]; show 1 ≤ _; omega)), toNat_ones h]
    rfl
  refine BitVec.eq_of_getLsbD_eq fun j hj => ?_
  rw [← BitVec.testBit_toNat (ones m - 1), hnat, Nat.testBit_two_pow_sub_succ (by omega), testBit_one, getLsbD_shiftIn,
    getLsbD_ones h, getLsbD_ones h]
  by_cases h0 : j = 0
  · simp [h0]
  · simp [h0]; omega

end

/-! ### Several steps -/

/-- Result number `t` of the sequence is the output bit of the register after `t` steps. -/
theorem getD_outputBits (g n v : Word) {k t : Nat} (ht : t < k) :
    (outputBits g n k v).getD t false = feedbackBit g (registerAfter g n t v) := by
  have hlt : t < (outputBits g n k v).length := by rwa [length_outputBits]
  rw [List.getD_eq_getElem _ _ hlt, getElem_outputBits hlt]

/-- A register bit is the result of as many steps ago, or the initial bit it was shifted from (R109). -/
theorem getLsbD_registerAfter_ones {m : Nat} (h : m < 32) (g v : Word) {t k : Nat} (ht : t ≤ k) {j : Nat} (hj : j < m) :
    (registerAfter g (ones m) t v).getLsbD j =
      if j < t then (outputBits g (ones m) k v).getD (t - 1 - j) false else v.getLsbD (j - t) := by
  induction t generalizing j with
  | zero => rfl
  | succ t ih =>
    rw [registerAfter_succ, nextRegister]
    cases j with
    | zero => rw [getLsbD_zero_shiftIn_ones h _ _ hj, if_pos (Nat.succ_pos t)]; exact (getD_outputBits _ _ _ ht).symm
    | succ j =>
      rw [getLsbD_succ_shiftIn_ones h _ _ hj, ih (by omega) (by omega),
        show t + 1 - 1 - (j + 1) = t - 1 - j by omega, Nat.add_sub_add_right]
      simp only [Nat.add_lt_add_iff_right]

/-- Each result is the XOR, over the taps, of the results before it or of the initial bits (R109). -/
theorem getD_outputBits_eq_xorBelow {m : Nat} (h : m < 32) (g : Word) {v : Word} (hv : v.toNat ≤ (ones m).toNat) {u k : Nat}
    (hu : u < k) :
    (outputBits g (ones m) k v).getD u false = xorBelow m fun j =>
      g.getLsbD j && if j < u then (outputBits g (ones m) k v).getD (u - 1 - j) false else v.getLsbD (j - u) := by
  rw [getD_outputBits g _ v hu, feedbackBit_eq_xorBelow_of_le h (registerAfter_le hv u)]
  exact xorBelow_congr fun j hj => by rw [getLsbD_registerAfter_ones h g v (Nat.le_of_lt hu) hj]

/-- As a number, a packed symbol reads its bits most significant first (R105). -/
theorem foldl_packBit_ofNat (bits : List Bit) (y : Nat) :
    bits.foldl packBit (BitVec.ofNat 32 y) = BitVec.ofNat 32 (bits.foldl (fun x b => 2 * x + b.toNat) y) := by
  induction bits generalizing y with
  | nil => rfl
  | cons b bits ih => rw [List.foldl_cons, List.foldl_cons, packBit_ofNat, ih]

/-! ### ADVANCE commands in a row -/

/-- The state after `k` ADVANCE commands: the register's `k` steps, and one response per bit (R101). -/
def State.afterAdvances (s : State) (k : Nat) : State :=
  { s with
    b := lastBit s.g s.n k s.v s.b
    v := registerAfter s.g s.n k s.v
    responses := s.responses ++ (outputBits s.g s.n k s.v).map fun b => ⟨.ok, .none, bitWord b⟩ }

theorem exec_advance_eq_next {s : State} (hv : s.valid = true) : exec .advance s = .next (s.afterAdvances 1) :=
  exec_advance_of_valid hv

theorem execAll_cons {i : Instr} {is : List Instr} {s t : State} (h : exec i s = .next t) :
    execAll (i :: is) s = execAll is t := by
  rw [execAll, h]

/-- One ADVANCE and then `k` more are `k + 1`. -/
theorem State.afterAdvances_succ (s : State) (k : Nat) : (s.afterAdvances 1).afterAdvances k = s.afterAdvances (k + 1) := by
  have hb : lastBit s.g s.n (k + 1) s.v s.b = lastBit s.g s.n k (nextRegister s.g s.n s.v) (feedbackBit s.g s.v) :=
    lastBit_succ ..
  simp only [State.afterAdvances, hb, outputBits, List.map_cons, List.append_assoc]
  rfl

theorem execAll_advance {s : State} (hv : s.valid = true) (k : Nat) :
    execAll (List.replicate k .advance) s = .next (s.afterAdvances k) := by
  induction k generalizing s with
  | zero =>
    have h0 : s.afterAdvances 0 = s := by simp [State.afterAdvances, outputBits]
    rw [h0]; rfl
  | succ k ih =>
    rw [List.replicate_succ, execAll_cons (exec_advance_eq_next hv), ih (s := s.afterAdvances 1) hv, s.afterAdvances_succ]

/-- ADVANCE commands that bring the register back write nothing but `B` and their responses. -/
theorem State.afterAdvances_of_cycle {s : State} {k : Nat} (h : registerAfter s.g s.n k s.v = s.v) :
    s.afterAdvances k =
      { s with
        b := lastBit s.g s.n k s.v s.b
        responses := s.responses ++ (outputBits s.g s.n k s.v).map fun b => ⟨.ok, .none, bitWord b⟩ } := by
  rw [State.afterAdvances, h]

end Sys2Proof.Machine
end

section
/-! PROOF. The advancement commands: what ADVANCE and GENSYM write and answer, one command after another, and the laws of the
sequence they step through (41_advancement.md R100 to R109). -/

namespace Sys2Proof.Machine

/-! ### ADVANCE -/

/-- Settles O26: the feedback bit counts the tapped bits of `V` modulo 2. -/
theorem advanceEffect : Obligations.AdvanceEffect := by
  refine ⟨fun _ _ _ => decode_of_opcode rfl rfl, fun s => ⟨fun hv b hb => ?_, exec_of_not_valid rfl⟩⟩
  obtain rfl : feedbackBit s.g s.v = b := by rw [hb, feedbackBit_eq_xorBelow, xorBelow_eq_countP]
  exact exec_advance_eq_next hv

/-- Settles O27: under the mask of `M` bits a step puts the feedback bit at the bottom and every other bit one place up. -/
theorem advanceShiftsTowardTheTop : Obligations.AdvanceShiftsTowardTheTop := by
  intro s hinv hv
  obtain ⟨h2, h31, -, -⟩ := hinv hv
  have hnext : nextRegister s.g s.n s.v = shiftIn (ones s.m.toNat) s.v (feedbackBit s.g s.v) := by
    rw [nextRegister, n_eq_ones_of_inv hinv hv]
  refine ⟨_, exec_advance_eq_next hv, nextRegister_le .., ?_, fun j hj => ?_, fun j hj => ?_⟩
  · exact (congrArg (·.getLsbD 0) hnext).trans (getLsbD_zero_shiftIn_ones (by omega) _ _ (by omega))
  · exact (congrArg (·.getLsbD (j + 1)) hnext).trans (getLsbD_succ_shiftIn_ones (by omega) _ _ hj)
  · exact (congrArg (·.getLsbD j) hnext).trans (getLsbD_shiftIn_ones_of_ge (by omega) _ _ hj)

/-- Settles O34: the taps under `N` give the feedback bit, and the feedback bit is all a step reads of `G`. -/
theorem highTapsAreHiddenWhileMasked : Obligations.HighTapsAreHiddenWhileMasked := by
  intro s g' hinv hmasked hv hg
  obtain ⟨-, h31, -, -⟩ := hinv hv
  have hle := hmasked hv
  rw [n_eq_ones_of_inv hinv hv] at hg hle
  have hfb : feedbackBit g' s.v = feedbackBit s.g s.v := by
    rw [feedbackBit_of_le (by omega) hle g', hg, ← feedbackBit_of_le (by omega) hle]
  refine ⟨_, exec_advance_eq_next hv, (exec_advance_eq_next (s := { s with g := g' }) hv).trans ?_⟩
  simp only [State.afterAdvances, lastBit, outputBits, registerAfter, nextRegister, hfb]

/-! ### GENSYM -/

/-- Settles O28: the loop runs `k` steps and packs their bits. -/
theorem gensymEffect : Obligations.GensymEffect := by
  refine ⟨fun _ _ _ => decode_of_opcode rfl rfl, fun k s => ⟨fun hv => ⟨_, exec_gensym_of_valid hv k, fun i hi => ?_⟩,
    exec_of_not_valid rfl⟩⟩
  rw [packBits, getLsbD_foldl_packBit _ _ hi, length_outputBits]
  by_cases hk : i < k.toNat
  · rw [if_pos hk, decide_eq_true hk, Bool.true_and]
  · rw [if_neg hk, decide_eq_false hk, Bool.false_and]; exact BitVec.getLsbD_zero

/-- Settles O29: both run the register `k` steps, and the packed bits read as a number. -/
theorem gensymEqualsRepeatedAdvance : Obligations.GensymEqualsRepeatedAdvance := by
  intro k s hv
  refine ⟨outputBits s.g s.n k.toNat s.v, _, _, length_outputBits .., execAll_advance hv k.toNat, ?_⟩
  rw [exec_gensym_of_valid hv, packBits, show (0 : Word) = BitVec.ofNat 32 0 from rfl, foldl_packBit_ofNat]
  rfl

/-! ### Period and balance of the default rows -/

/-- The results of a period of `2^m - 1` steps that are not its `2^(m-1)` ones are zeros (R106). -/
theorem count_false_outputBits_of_count_true {m : Nat} (h1 : 1 ≤ m) {g n v : Word}
    (hones : (outputBits g n (2 ^ m - 1) v).count true = 2 ^ (m - 1)) :
    (outputBits g n (2 ^ m - 1) v).count false = 2 ^ (m - 1) - 1 := by
  have hsum := List.count_true_add_count_false (outputBits g n (2 ^ m - 1) v)
  have hpow : 2 ^ m = 2 ^ (m - 1) * 2 := by rw [← Nat.pow_succ, Nat.succ_eq_add_one, Nat.sub_add_cancel h1]
  rw [hones, length_outputBits] at hsum
  omega

/-- Settles O30: every polynomial the table may hold brings the register back with `2^(m-1)` ones, and the rest are zeros. -/
theorem defaultRowsHavePeriodAndBalance : Obligations.DefaultRowsHavePeriodAndBalance := by
  intro m s h2 h15
  obtain ⟨-, hback, hones⟩ := (isTabulable_iff _ _).mp (tablePolynomial_isTabulable h2 h15)
  exact ⟨_, _, _, exec_createDefault_of_length s ⟨h2, h15⟩,
    (execAll_advance rfl _).trans (congrArg _ (State.afterAdvances_of_cycle hback)), hones,
    count_false_outputBits_of_count_true (by omega) hones⟩

/-! ### The zero register and the other fixed points -/

/-- Only RESET and SET_STATE take an instance off the zero register, since its steps feed back 0 (R107). -/
theorem InstanceEffect.preserves_zero {s u : State} {i : Instr} (h : InstanceEffect s i u) (hzero : s.v = 0#32)
    (hreset : i ≠ .reset) (hset : ∀ x, i ≠ .setState x) : u.v = 0#32 := by
  cases h with
  | ended | shown => exact hzero
  | restored => exact absurd rfl hreset
  | written x => exact absurd rfl (hset x)
  | ran i k => show registerAfter s.g s.n k s.v = 0#32; rw [hzero, registerAfter_of_zero]

theorem execAll_preserves_zero {s : State} {is : List Instr} (hv : s.valid = true) (hzero : s.v = 0#32)
    (his : ∀ i ∈ is, i.isConstruction = false ∧ i ≠ .destroy ∧ i ≠ .reset ∧ ∀ x, i ≠ .setState x) :
    ∃ t, execAll is s = .next t ∧ t.valid = true ∧ t.v = 0#32 := by
  induction is generalizing s with
  | nil => exact ⟨s, rfl, hv, hzero⟩
  | cons i is ih =>
    obtain ⟨⟨hi, hdestroy, hreset, hset⟩, hrest⟩ := List.forall_mem_cons.mp his
    obtain ⟨x, u, hu, hexec⟩ := exec_of_valid hi hv
    rw [execAll_cons hexec]
    exact ih ((hu.valid_eq hdestroy).trans hv) (hu.preserves_zero hzero hreset hset) hrest

/-- Settles O31: the commands keep the register zero, and an ADVANCE from zero feeds back 0 and stays there. -/
theorem zeroRegisterStaysZero : Obligations.ZeroRegisterStaysZero := by
  intro s is hv hzero his
  obtain ⟨t, ht, htv, htzero⟩ := execAll_preserves_zero hv hzero his
  refine ⟨t, ht, htzero, (exec_advance_eq_next htv).trans ?_⟩
  have hfb : feedbackBit t.g t.v = false := by rw [htzero, feedbackBit_zero]
  have hnext : nextRegister t.g t.n t.v = t.v := by rw [htzero, nextRegister_zero]
  simp only [State.afterAdvances, lastBit, outputBits, registerAfter, hfb, hnext]
  rfl

/-- The all-ones register feeds back the weight of the taps below `M`, modulo 2 (R108). -/
theorem feedbackBit_ones {m : Nat} (h : m < 32) (g : Word) :
    feedbackBit g (ones m) = decide ((List.range m).countP g.getLsbD % 2 = 1) := by
  rw [feedbackBit_eq_xorBelow_of_le h (Nat.le_refl _), ← xorBelow_eq_countP]
  refine xorBelow_congr fun j hj => ?_
  rw [getLsbD_ones h, decide_eq_true hj, Bool.and_true]

/-- Settles O32: a fixed register holds the bit shifted in at every place, and all ones feed back the taps' weight. -/
theorem fixedPointsOfAdvance : Obligations.FixedPointsOfAdvance := by
  intro s hinv hmasked hv
  obtain ⟨h2, h31, -, -⟩ := hinv hv
  have hm : s.m.toNat < 32 := by omega
  have hfb := feedbackBit_ones hm s.g
  refine ⟨_, exec_advance_eq_next hv, ?_⟩
  show (nextRegister s.g s.n s.v = s.v ↔ _) ∧ (_ → _ → nextRegister s.g s.n s.v = _)
  rw [n_eq_ones_of_inv hinv hv]
  refine ⟨⟨fun hfix => ?_, ?_⟩, fun hones heven => ?_⟩
  · obtain hzero | ⟨hones, hbit⟩ := eq_zero_or_ones_of_shiftIn_ones_eq hm hfix
    · exact .inl hzero
    · rw [hones, hfb] at hbit
      exact .inr ⟨hones, of_decide_eq_true hbit⟩
  · rintro (hzero | ⟨hones, hodd⟩)
    · rw [hzero]; exact nextRegister_zero ..
    · rw [hones, nextRegister, hfb, decide_eq_true hodd, shiftIn_ones_ones_true hm]
  · rw [hones, nextRegister, hfb, decide_eq_false (by omega), shiftIn_ones_ones_false hm (by omega)]

/-! ### The linear recurrence -/

/-- Settles O33: each register bit is an earlier result or an initial bit, and each result is the XOR of the tapped register
bits, of which none is an initial bit any more from result number `M + 1` on. -/
theorem outputObeysLinearRecurrence : Obligations.OutputObeysLinearRecurrence := by
  intro s k hinv hmasked hv
  obtain ⟨-, h31, -, -⟩ := hinv hv
  have hm : s.m.toNat < 32 := by omega
  have hn := n_eq_ones_of_inv hinv hv
  have hle := hn ▸ hmasked hv
  refine ⟨outputBits s.g (ones s.m.toNat) k s.v, s.afterAdvances k, length_outputBits .., execAll_advance hv k, ?_,
    fun j hj => ?_, fun u hu => ?_, fun u hmu hu => ?_⟩
  · rw [← hn]; rfl
  · show (registerAfter s.g s.n k s.v).getLsbD j = _
    rw [hn, getLsbD_registerAfter_ones hm _ _ (Nat.le_refl k) hj]
  · rw [← xorBelow_eq_countP]; exact getD_outputBits_eq_xorBelow hm s.g hle hu
  · rw [← xorBelow_eq_countP, getD_outputBits_eq_xorBelow hm s.g hle hu]
    exact xorBelow_congr fun j hj => by rw [if_pos (Nat.lt_of_lt_of_le hj hmu)]

end Sys2Proof.Machine
end

section
/-! PROOF. RESET, SET_STATE and the accessors: what each writes and answers, and the sequence RESET starts again
(42_state_access.md R120 to R127). -/

namespace Sys2Proof.Machine

/-! ### The sequence RESET starts again -/

/-- A construction that answers OK leaves an instance whose register holds its initial state (R80, R84). -/
theorem exec_construction_of_ok {i : Instr} {s t : State} (hi : i.isConstruction = true) (h : exec i s = .next t)
    (hok : t.responses = s.responses ++ [⟨.ok, .none, 0⟩]) : t.valid = true ∧ t.v = t.a := by
  obtain ⟨row, hrow, hbuilds⟩ | ⟨reason, -, hrefuses⟩ := exec_buildsOrRefuses hi
  · obtain rfl := respond_eq_next_iff.mp ((hbuilds s).symm.trans h)
    exact ⟨rfl, hrow.v_eq⟩
  · obtain rfl := respond_eq_next_iff.mp ((hrefuses s).symm.trans h)
    cases List.append_cancel_left hok

/-- Commands that neither construct nor destroy keep the instance and what the sequence from `A` depends on (R22 to R25). -/
theorem execAll_keeps_instance {is : List Instr} {s u : State} (hv : s.valid = true)
    (his : ∀ i ∈ is, i.isConstruction = false ∧ i ≠ .destroy) (h : execAll is s = .next u) :
    u.valid = true ∧ u.g = s.g ∧ u.a = s.a ∧ u.n = s.n := by
  induction is generalizing s with
  | nil =>
    obtain rfl : s = u := Host.Outcome.next.inj h
    exact ⟨hv, rfl, rfl, rfl⟩
  | cons i is ih =>
    obtain ⟨⟨hi, hdestroy⟩, hrest⟩ := List.forall_mem_cons.mp his
    obtain ⟨x, w, hw, hexec⟩ := exec_of_valid hi hv
    rw [execAll_cons hexec] at h
    obtain ⟨huv, hug, hua, hun⟩ := ih (s := w.addResponse _) ((hw.valid_eq hdestroy).trans hv) hrest h
    obtain ⟨-, hg, ha, hn⟩ := hw.fixed
    exact ⟨huv, hug.trans hg, hua.trans ha, hun.trans hn⟩

/-- After RESET the ADVANCE commands run the register from `A`. -/
theorem execAll_reset_advance {u : State} (hv : u.valid = true) (k : Nat) :
    execAll (.reset :: List.replicate k .advance) u =
      .next (((u.setV u.a).addResponse ⟨.ok, .none, 0⟩).afterAdvances k) :=
  (execAll_cons (exec_reset_of_valid hv)).trans (execAll_advance (s := (u.setV u.a).addResponse _) hv k)

/-- Settles O36: the construction leaves `V = A`, the commands between keep `G`, `A` and `N`, and RESET loads `A`, so the
same register runs through the same steps. -/
theorem resetReproducesTheSequence : Obligations.ResetReproducesTheSequence := by
  intro i is s t u k hi ht hok his hu
  obtain ⟨htv, hva⟩ := exec_construction_of_ok hi ht hok
  obtain ⟨huv, hg, ha, hn⟩ := execAll_keeps_instance htv his hu
  refine ⟨outputBits t.g t.n k t.v, _, _, length_outputBits .., execAll_advance htv k, rfl,
    execAll_reset_advance huv k, ?_, ?_⟩
  · show (u.responses ++ [_]) ++ (outputBits u.g u.n k u.a).map _ = _
    rw [hg, ha, hn, hva, List.append_assoc]; rfl
  · show registerAfter u.g u.n k u.a = registerAfter t.g t.n k t.v
    rw [hg, ha, hn, hva]

/-! ### What each command writes and answers -/

/-- Settles O35: with an instance RESET writes `V` alone, and without one it is rejected. -/
theorem resetEffect : Obligations.ResetEffect :=
  ⟨fun _ _ _ => decode_of_opcode rfl rfl, fun _ => ⟨exec_reset_of_valid, exec_of_not_valid rfl⟩⟩

/-- Settles O37: with an instance each accessor adds its response alone, and without one all four are rejected. -/
theorem accessorsReturnTheirRegister : Obligations.AccessorsReturnTheirRegister := by
  refine ⟨fun _ _ _ => ⟨decode_of_opcode rfl rfl, decode_of_opcode rfl rfl, decode_of_opcode rfl rfl,
    decode_of_opcode rfl rfl⟩, fun s => ⟨fun hv => ?_, fun hv i hi => ?_⟩⟩
  · exact ⟨exec_getM_of_valid hv, exec_getG_of_valid hv, exec_getN_of_valid hv, exec_getV_of_valid hv⟩
  · have hi : i.isConstruction = false := by obtain rfl | rfl | rfl | rfl := hi <;> rfl
    exact exec_of_not_valid hi hv

/-- Settles O38: with an instance SET_STATE writes `V` alone, with its operand whole, and without one it is rejected. -/
theorem setStateEffect : Obligations.SetStateEffect :=
  ⟨fun _ _ _ => decode_of_opcode rfl rfl, fun x _ =>
    ⟨fun hv => exec_setState_of_valid hv x, exec_of_not_valid rfl⟩⟩

end Sys2Proof.Machine
end

section
/-! PROOF. The buffer bridge and the diagnostic: what FILL and PRINT emit, that no other command emits anything, and the whole
period FILL pushes when the polynomial has full period (43_bridge_and_diagnostic.md R140 to R143). -/

namespace Sys2Proof.Machine

/-! ### What FILL and PRINT emit -/

/-- Settles O39: with an instance the loop runs the register `N` steps and pushes their bits after the Clear. -/
theorem fillEffect : Obligations.FillEffect :=
  ⟨fun _ _ _ => decode_of_opcode rfl rfl, fun _ =>
    ⟨fun hv => ⟨exec_fill_of_valid hv, length_outputBits ..⟩, exec_of_not_valid rfl⟩⟩

/-- Settles O41: with an instance PRINT adds its event and its response alone, and without one it is rejected. -/
theorem printEffect : Obligations.PrintEffect :=
  ⟨fun _ _ _ => decode_of_opcode rfl rfl, fun _ => ⟨exec_print_of_valid, exec_of_not_valid rfl⟩⟩

/-! ### Which command reaches which event port -/

/-- On an instance only FILL adds to the bit-buffer events. -/
theorem InstanceEffect.bufEvents {s u : State} {i : Instr} (h : InstanceEffect s i u) :
    (i ≠ .fill → u.bufEvents = s.bufEvents) ∧ s.bufEvents <+: u.bufEvents := by
  cases h with
  | ended | restored | written | shown => exact ⟨fun _ => rfl, List.prefix_refl _⟩
  | ran i k events hsilent =>
    refine ⟨fun hi => ?_, List.prefix_append ..⟩
    rw [hsilent hi, List.append_nil]

/-- On an instance only PRINT adds to the diagnostic events. -/
theorem InstanceEffect.diagEvents {s u : State} {i : Instr} (h : InstanceEffect s i u) :
    (i ≠ .print → u.diagEvents = s.diagEvents) ∧ s.diagEvents <+: u.diagEvents := by
  cases h with
  | ended | restored | written | ran => exact ⟨fun _ => rfl, List.prefix_refl _⟩
  | shown i events hsilent =>
    refine ⟨fun hi => ?_, List.prefix_append ..⟩
    rw [hsilent hi, List.append_nil]

/-- A command presents no other command. -/
theorem InstanceEffect.pending_eq {s u : State} {i : Instr} (h : InstanceEffect s i u) : u.pending = s.pending := by
  cases h <;> rfl

/-- Settles O42: a construction and a rejected command write no event, and of the effects on an instance only FILL's adds to
the one port and only PRINT's to the other. -/
theorem onlyFillAndPrintEmitEvents : Obligations.OnlyFillAndPrintEmitEvents := by
  intro i s t h
  obtain ⟨row, r, -, -, rfl⟩ | ⟨r, rfl⟩ | ⟨u, r, -, -, hu, rfl⟩ := exec_cases h
  · exact ⟨fun _ => rfl, fun _ => rfl, List.prefix_refl _, List.prefix_refl _, rfl⟩
  · exact ⟨fun _ => rfl, fun _ => rfl, List.prefix_refl _, List.prefix_refl _, rfl⟩
  · obtain ⟨hbuf, hbufPrefix⟩ := hu.bufEvents
    obtain ⟨hdiag, hdiagPrefix⟩ := hu.diagEvents
    exact ⟨hbuf, hdiag, hbufPrefix, hdiagPrefix, hu.pending_eq⟩

/-! ### A full cycle runs through every register but zero

A cycle of the full length `2^m - 1` meets that many different registers and never zero, so it meets each nonzero register
of `m` bits once. Hence any of them starts such a cycle, and the ones produced are the odd numbers below `2^m` (R142). -/

/-- The register's cycle from `v` has the full length (41_advancement.md R106). -/
def StartsFullCycle (m : Nat) (g v : Word) : Prop :=
  Function.minimalPeriod (nextRegister g (ones m)) v = 2 ^ m - 1

/-- The registers of one full cycle from `v`, in the order they are met. -/
def cycleRegisters (m : Nat) (g v : Word) : List Word := List.iterate (nextRegister g (ones m)) v (2 ^ m - 1)

theorem two_pow_sub_one_pos {m : Nat} (h1 : 1 ≤ m) : 0 < 2 ^ m - 1 :=
  Nat.sub_pos_of_lt (Nat.one_lt_two_pow (by omega))

/-- With a polynomial of full period the canonical state starts a full cycle. -/
theorem startsFullCycle_canonicalState {m : Nat} (h1 : 1 ≤ m) {g : Word} (hg : HasFullPeriod m g) :
    StartsFullCycle m g (canonicalState m) := by
  obtain ⟨hback, hfirst⟩ := hg
  have hperiodic : Function.IsPeriodicPt (nextRegister g (ones m)) (2 ^ m - 1) (canonicalState m) :=
    (registerAfter_eq_iterate ..).symm.trans hback
  have hpos := two_pow_sub_one_pos h1
  refine le_antisymm (hperiodic.minimalPeriod_le hpos) (Nat.le_of_not_lt fun hlt => ?_)
  refine hfirst _ hlt (hperiodic.minimalPeriod_pos hpos) ?_
  rw [registerAfter_eq_iterate, Function.iterate_minimalPeriod]

namespace StartsFullCycle

variable {m : Nat} {g v : Word} (hv : StartsFullCycle m g v)
include hv

theorem registerAfter_period : registerAfter g (ones m) (2 ^ m - 1) v = v := by
  rw [registerAfter_eq_iterate, ← show _ = 2 ^ m - 1 from hv, Function.iterate_minimalPeriod]

/-- Every register of a full cycle starts one. -/
theorem iterate (h1 : 1 ≤ m) (t : Nat) : StartsFullCycle m g ((nextRegister g (ones m))^[t] v) := by
  have hmem : v ∈ Function.periodicPts (nextRegister g (ones m)) :=
    Function.minimalPeriod_pos_iff_mem_periodicPts.mp (hv ▸ two_pow_sub_one_pos h1)
  exact (Function.minimalPeriod_apply_iterate hmem t).trans hv

/-- A register of a full cycle is what a step left, so it is within the period. -/
theorem toNat_lt (h1 : 1 ≤ m) (h : m < 32) : v.toNat < 2 ^ m := by
  have hpos := two_pow_sub_one_pos h1
  have hle := nextRegister_le g (ones m) (registerAfter g (ones m) (2 ^ m - 1 - 1) v)
  rw [← registerAfter_succ, Nat.sub_add_cancel hpos, hv.registerAfter_period, toNat_ones h] at hle
  omega

/-- Zero is a cycle of its own (R107). -/
theorem ne_zero (h2 : 2 ≤ m) : v ≠ 0#32 := by
  rintro rfl
  have hone : Function.minimalPeriod (nextRegister g (ones m)) 0#32 = 1 :=
    Function.minimalPeriod_eq_one_iff_isFixedPt.mpr (nextRegister_zero g (ones m))
  have hpow : 2 ^ 2 ≤ 2 ^ m := Nat.pow_le_pow_right (by decide) h2
  have hlen : 1 = 2 ^ m - 1 := hone.symm.trans hv
  omega

/-- A full cycle meets no register twice. -/
theorem nodup_cycleRegisters : (cycleRegisters m g v).Nodup := by
  rw [cycleRegisters, ← List.range_map_iterate, ← show _ = 2 ^ m - 1 from hv]
  refine List.nodup_range.map_on fun j hj k hk heq => ?_
  exact (Function.iterate_eq_iterate_iff_of_lt_minimalPeriod (List.mem_range.mp hj) (List.mem_range.mp hk)).mp heq

theorem of_mem_cycleRegisters (h1 : 1 ≤ m) {w : Word} (hw : w ∈ cycleRegisters m g v) : StartsFullCycle m g w := by
  obtain ⟨t, -, rfl⟩ := List.mem_iterate.mp hw
  exact hv.iterate h1 t

/-- With zero in front, the registers of a full cycle are the numbers below `2^m`, each once. -/
theorem perm_range (h2 : 2 ≤ m) (h : m < 32) :
    ((0#32 :: cycleRegisters m g v).map BitVec.toNat).Perm (List.range (2 ^ m)) := by
  have hnodup : (0#32 :: cycleRegisters m g v).Nodup :=
    List.nodup_cons.mpr ⟨fun hmem => (hv.of_mem_cycleRegisters (by omega) hmem).ne_zero h2 rfl, hv.nodup_cycleRegisters⟩
  have hsubset : (0#32 :: cycleRegisters m g v).map BitVec.toNat ⊆ List.range (2 ^ m) := by
    intro x hx
    obtain ⟨w, hw, rfl⟩ := List.mem_map.mp hx
    rw [List.mem_range]
    obtain rfl | hw := List.mem_cons.mp hw
    · exact Nat.two_pow_pos m
    · exact (hv.of_mem_cycleRegisters (by omega) hw).toNat_lt (by omega) h
  refine ((hnodup.map BitVec.toNat_injective).subperm hsubset).perm_of_length_le ?_
  rw [List.length_range, List.length_map, List.length_cons, cycleRegisters, List.length_iterate]
  omega

end StartsFullCycle

/-- With a polynomial of full period every register but zero starts a full cycle (R142). -/
theorem startsFullCycle_of_hasFullPeriod {m : Nat} (h2 : 2 ≤ m) (h : m < 32) {g v : Word} (hg : HasFullPeriod m g)
    (hpos : 0 < v.toNat) (hlt : v.toNat < 2 ^ m) : StartsFullCycle m g v := by
  have hcanon := startsFullCycle_canonicalState (by omega) hg
  obtain ⟨w, hw, hwv⟩ := List.mem_map.mp ((hcanon.perm_range h2 h).mem_iff.mpr (List.mem_range.mpr hlt))
  obtain rfl : w = v := BitVec.eq_of_toNat_eq hwv
  obtain rfl | hw := List.mem_cons.mp hw
  · exact absurd hpos (Nat.lt_irrefl 0)
  · exact hcanon.of_mem_cycleRegisters (by omega) hw

/-! ### The ones of a full cycle -/

/-- Each output bit is bit 0 of the register its step leaves (R100). -/
theorem outputBits_eq_map_iterate {m : Nat} (h1 : 1 ≤ m) (h : m < 32) (g : Word) (k : Nat) (v : Word) :
    outputBits g (ones m) k v =
      (List.iterate (nextRegister g (ones m)) (nextRegister g (ones m) v) k).map (·.getLsbD 0) := by
  induction k generalizing v with
  | zero => rfl
  | succ k ih =>
    have hbit : (nextRegister g (ones m) v).getLsbD 0 = feedbackBit g v := getLsbD_zero_shiftIn_ones h _ _ h1
    rw [outputBits, List.iterate, List.map_cons, ih, hbit]

/-- Half of the numbers below `2 * k` are odd. -/
theorem countP_range_testBit_zero (k : Nat) : (List.range (2 * k)).countP (·.testBit 0) = k := by
  induction k with
  | zero => rfl
  | succ k ih =>
    rw [Nat.mul_succ, List.range_succ, List.range_succ, List.countP_append, List.countP_append, ih]
    simp [Nat.add_mod]

/-- A full cycle produces `2^(m-1)` ones: one for each odd number below `2^m`. -/
theorem StartsFullCycle.count_true_outputBits {m : Nat} (h2 : 2 ≤ m) (h : m < 32) {g v : Word}
    (hv : StartsFullCycle m g v) : (outputBits g (ones m) (2 ^ m - 1) v).count true = 2 ^ (m - 1) := by
  have hpow : 2 ^ m = 2 * 2 ^ (m - 1) := by rw [← Nat.pow_succ', Nat.succ_eq_add_one, Nat.sub_add_cancel (by omega)]
  have hnext : StartsFullCycle m g (nextRegister g (ones m) v) := hv.iterate (by omega) 1
  calc (outputBits g (ones m) (2 ^ m - 1) v).count true
    _ = (cycleRegisters m g (nextRegister g (ones m) v)).countP (·.getLsbD 0) := by
      rw [outputBits_eq_map_iterate (by omega) h, List.count_eq_countP, List.countP_map, cycleRegisters]
      simp only [Function.comp_def, beq_true]
    _ = ((0#32 :: cycleRegisters m g (nextRegister g (ones m) v)).map BitVec.toNat).countP (·.testBit 0) := by
      rw [List.map_cons, List.countP_cons_of_neg (by decide), List.countP_map]; rfl
    _ = (List.range (2 ^ m)).countP (·.testBit 0) := (hnext.perm_range h2 h).countP_eq _
    _ = 2 ^ (m - 1) := by rw [hpow, countP_range_testBit_zero]

/-- FILL over a cycle of `N` steps writes nothing but `B`, its events and its response. -/
theorem exec_fill_of_cycle {s : State} (hv : s.valid = true) (h : registerAfter s.g s.n s.n.toNat s.v = s.v) :
    exec .fill s = .next
      { s with
        b := lastBit s.g s.n s.n.toNat s.v s.b
        bufEvents := s.bufEvents ++ .clear :: (outputBits s.g s.n s.n.toNat s.v).map .push
        responses := s.responses ++ [⟨.ok, .none, 0⟩] } := by
  rw [exec_fill_of_valid hv, h]; rfl

/-- Settles O40: with a polynomial of full period `V` starts a full cycle, which brings it back and produces the ones, and
the rest of its bits are zeros; a default row's balance rules out a shorter cycle. -/
theorem fillPushesOneWholePeriod : Obligations.FillPushesOneWholePeriod := by
  refine ⟨fun s hv h2 h31 hn hg hpos hle => ?_, fun m h2 h15 =>
    hasFullPeriod_of_isTabulable (by omega) (tablePolynomial_isTabulable h2 h15)⟩
  have hm : s.m.toNat < 32 := by omega
  have hones : s.n = ones s.m.toNat := BitVec.eq_of_toNat_eq (hn.trans (toNat_ones hm).symm)
  have hcycle : StartsFullCycle s.m.toNat s.g s.v := startsFullCycle_of_hasFullPeriod h2 hm hg hpos (by omega)
  have htrue := hcycle.count_true_outputBits h2 hm
  have hfalse := count_false_outputBits_of_count_true (by omega) htrue
  have hback := hcycle.registerAfter_period
  rw [← hones, ← hn] at htrue hfalse hback
  exact ⟨_, _, exec_fill_of_cycle hv hback, htrue, hfalse⟩

end Sys2Proof.Machine
end

section
/-! PROOF. Every command ends with one response, only a construction's can be a configuration error, and nothing stops the
core (60_exceptions.md R150 to R158, R166). -/

namespace Sys2Proof.Machine

/-! ### Commands that are not constructions -/

/-- On an instance a command's effect takes no response back and gives none: the response comes after it. -/
theorem InstanceEffect.responses_eq {s u : State} {i : Instr} (h : InstanceEffect s i u) : u.responses = s.responses := by
  cases h <;> rfl

/-- Settles O43: without an instance the one response is all the command adds, and it records the fault. -/
theorem noInstanceIsRejected : Obligations.NoInstanceIsRejected :=
  fun _ _ hi hv => ⟨_, exec_of_not_valid hi hv, rfl, recordedFaults_addResponse ..⟩

/-- Settles O44: with an instance the response is OK, and without one it is NO_INSTANCE. -/
theorem onlyConstructionCanFail : Obligations.OnlyConstructionCanFail := by
  intro i s hi
  cases hv : s.valid with
  | true =>
    obtain ⟨x, u, hu, hexec⟩ := exec_of_valid hi hv
    exact ⟨_, _, hexec, congrArg (· ++ [_]) hu.responses_eq, nofun, rfl, fun _ => rfl⟩
  | false => exact ⟨_, _, exec_of_not_valid hi hv, rfl, nofun, rfl, nofun⟩

/-! ### One response to every command -/

/-- The answer `x` to a command accepted in `s` goes on, with one response of the shape of R66 added and the commands still
presented left as they are. -/
def AnswersOnce (s : State) (x : Answer) : Prop :=
  ∃ t r, x = .next t ∧ t.pending = s.pending ∧ t.responses = s.responses ++ [r] ∧ r.WellShaped

/-- Whatever a command writes before it responds OK, it answers once if it leaves the command port alone until then. -/
theorem respondOk_answersOnce (x : Word) {s u : State} (hp : u.pending = s.pending) (hr : u.responses = s.responses) :
    AnswersOnce s (respondOk x u) :=
  ⟨_, _, rfl, hp, congrArg (· ++ [_]) hr, fun _ => rfl, absurd rfl⟩

theorem raiseConfigurationError_answersOnce (re : Reason) (s : State) : AnswersOnce s (raiseConfigurationError re s) :=
  ⟨_, _, rfl, rfl, rfl, absurd rfl, fun _ => rfl⟩

theorem raiseNoInstance_answersOnce (s : State) : AnswersOnce s (raiseNoInstance s) :=
  ⟨_, _, rfl, rfl, rfl, fun _ => rfl, fun _ => rfl⟩

theorem raiseIllegalCommand_answersOnce (s : State) : AnswersOnce s (raiseIllegalCommand s) :=
  ⟨_, _, rfl, rfl, rfl, fun _ => rfl, fun _ => rfl⟩

theorem exec_answersOnce (i : Instr) (s : State) : AnswersOnce s (exec i s) := by
  cases hi : i.isConstruction with
  | true =>
    obtain ⟨row, -, hbuilds⟩ | ⟨reason, -, hrefuses⟩ := exec_buildsOrRefuses hi
    · rw [hbuilds]; exact respondOk_answersOnce _ (State.construct_pending s row) (State.construct_responses s row)
    · rw [hrefuses]; exact raiseConfigurationError_answersOnce reason s
  | false =>
    cases hv : s.valid with
    | true =>
      obtain ⟨x, u, hu, hexec⟩ := exec_of_valid hi hv
      rw [hexec]; exact respondOk_answersOnce x hu.pending_eq hu.responses_eq
    | false => rw [exec_of_not_valid hi hv]; exact raiseNoInstance_answersOnce s

theorem step_answersOnce {s : State} {c : Command} {rest : List Command} (hp : s.pending = c :: rest) :
    AnswersOnce { s with pending := rest } (step s) := by
  cases hd : decode c with
  | error e => rw [step_of_illegal hp hd]; exact raiseIllegalCommand_answersOnce _
  | ok i => rw [step_of_legal hp hd]; exact exec_answersOnce i _

/-- Settles O10: the step takes the command off the port, and an illegal word is answered once as every command is. -/
theorem everyCommandAnswersOnce : Obligations.EveryCommandAnswersOnce :=
  fun _ _ _ => step_answersOnce

/-! ### The core goes on -/

/-- Settles O8: the port holds no command to accept. -/
theorem idlingChangesNothing : Obligations.IdlingChangesNothing :=
  fun _ => step_of_idle

theorem step_goes_on (s : State) : ∃ t, step s = .next t := by
  cases hp : s.pending with
  | nil => exact ⟨s, step_of_idle hp⟩
  | cons c rest =>
    obtain ⟨t, -, ht, -⟩ := step_answersOnce hp
    exact ⟨t, ht⟩

/-- Settles O11, by induction on the length of the run: its first step goes on, and so does the rest. -/
theorem noRunEverStops : Obligations.NoRunEverStops := by
  intro k
  induction k with
  | zero => exact fun s => ⟨s, core_run_zero s⟩
  | succ k ih =>
    intro s
    obtain ⟨s', hs⟩ := step_goes_on s
    rw [core_run_succ hs]
    exact ih s'

end Sys2Proof.Machine
end

section
/-! PROOF. Power-on reset leaves no instance, without one only a construction can write the registers and nothing reads
them, and a step records the fault of the command it accepts (70_reset_and_hazards.md R180, R191; 60_exceptions.md R153,
R154). -/

namespace Sys2Proof.Machine

/-! ### Registers without an instance -/

theorem agreeWhileValid_refl (s : State) : AgreeWhileValid s s :=
  ⟨⟨rfl, rfl, rfl, rfl⟩, rfl, fun _ => ⟨rfl, rfl, rfl, rfl, rfl, rfl⟩⟩

/-- With an instance there is no register left in which the states may differ. -/
theorem eq_of_agreeWhileValid {s t : State} (hv : s.valid = true) (h : AgreeWhileValid s t) : s = t := by
  obtain ⟨⟨hp, hr, hbuf, hdiag⟩, hvalid, hregs⟩ := h
  obtain ⟨hm, hg, ha, hn, hv', hb⟩ := hregs hv
  rw [State.mk.injEq]
  exact ⟨hvalid, hm, hg, ha, hn, hv', hb, hp, hr, hbuf, hdiag⟩

theorem agreeWhileValid_addResponse {s t : State} (h : AgreeWhileValid s t) (r : Response) :
    AgreeWhileValid (s.addResponse r) (t.addResponse r) := by
  obtain ⟨⟨hp, hr, hevents⟩, hregs⟩ := h
  exact ⟨⟨hp, congrArg (· ++ [r]) hr, hevents⟩, hregs⟩

/-- Both ports move past the command they accept. -/
theorem agreeWhileValid_rest {s t : State} (h : AgreeWhileValid s t) (rest : List Command) :
    AgreeWhileValid { s with pending := rest } { t with pending := rest } := by
  obtain ⟨⟨-, houtputs⟩, hregs⟩ := h
  exact ⟨⟨rfl, houtputs⟩, hregs⟩

/-- A construction writes every register in which the states may differ. -/
theorem agreeWhileValid_construct {s t : State} (h : SamePorts s t) (row : InstanceRow) :
    AgreeWhileValid (s.construct row) (t.construct row) :=
  ⟨h, rfl, fun _ => ⟨rfl, rfl, rfl, rfl, rfl, rfl⟩⟩

/-- The answers `x` and `y` go on to states that differ in registers of a missing instance at most. -/
def AnswersAgreeWhileValid (x y : Answer) : Prop := ∃ s t, x = .next s ∧ y = .next t ∧ AgreeWhileValid s t

theorem respond_agreeWhileValid (st : Status) (re : Reason) (x : Word) {s t : State} (h : AgreeWhileValid s t) :
    AnswersAgreeWhileValid (respond st re x s) (respond st re x t) :=
  ⟨_, _, rfl, rfl, agreeWhileValid_addResponse h _⟩

/-- A construction reads no register, an instance leaves no register to differ in, and without one every other command is
rejected before it reads any. -/
theorem exec_agreeWhileValid (i : Instr) {s t : State} (h : AgreeWhileValid s t) :
    AnswersAgreeWhileValid (exec i s) (exec i t) := by
  have ⟨hports, hvalid, _⟩ := h
  cases hi : i.isConstruction with
  | true =>
    obtain ⟨row, -, hbuilds⟩ | ⟨reason, -, hrefuses⟩ := exec_buildsOrRefuses hi
    · rw [hbuilds, hbuilds]; exact respond_agreeWhileValid _ _ _ (agreeWhileValid_construct hports row)
    · rw [hrefuses, hrefuses]; exact respond_agreeWhileValid _ _ _ h
  | false =>
    cases hv : s.valid with
    | true =>
      obtain rfl := eq_of_agreeWhileValid hv h
      obtain ⟨x, u, -, hexec⟩ := exec_of_valid hi hv
      rw [hexec]; exact respond_agreeWhileValid _ _ _ (agreeWhileValid_refl u)
    | false =>
      have hv' : t.valid = false := hvalid.symm.trans hv
      rw [exec_of_not_valid hi hv, exec_of_not_valid hi hv']; exact respond_agreeWhileValid _ _ _ h

theorem step_agreeWhileValid {s t : State} (h : AgreeWhileValid s t) : AnswersAgreeWhileValid (step s) (step t) := by
  have ⟨⟨hport, _⟩, _⟩ := h
  cases hp : s.pending with
  | nil => exact ⟨s, t, step_of_idle hp, step_of_idle (hport.symm.trans hp), h⟩
  | cons c rest =>
    cases hd : decode c with
    | error e =>
      rw [step_of_illegal hp hd, step_of_illegal (hport.symm.trans hp) hd]
      exact respond_agreeWhileValid _ _ _ (agreeWhileValid_rest h rest)
    | ok i =>
      rw [step_of_legal hp hd, step_of_legal (hport.symm.trans hp) hd]
      exact exec_agreeWhileValid i (agreeWhileValid_rest h rest)

/-- Settles O15: each step maps states that differ in registers of a missing instance at most to such states, so every
run does. -/
theorem unspecifiedRegistersAreUnobservable : Obligations.UnspecifiedRegistersAreUnobservable :=
  fun k _ _ => run_related (fun _ _ => step_agreeWhileValid) k

/-! ### Recorded faults -/

/-- A command records a fault exactly when it needs an instance and there is none. -/
theorem exec_recordedFaults {i : Instr} {s t : State} (h : exec i s = .next t) :
    t.recordedFaults =
      s.recordedFaults ++ if i.isConstruction = false ∧ s.valid = false then [.noInstance] else [] := by
  cases hi : i.isConstruction with
  | true =>
    rw [if_neg (by simp)]
    obtain ⟨row, -, hbuilds⟩ | ⟨reason, -, hrefuses⟩ := exec_buildsOrRefuses hi
    · obtain rfl := respond_eq_next_iff.mp ((hbuilds s).symm.trans h)
      exact recordedFaults_addResponse (s.construct row) _
    · obtain rfl := respond_eq_next_iff.mp ((hrefuses s).symm.trans h)
      exact recordedFaults_addResponse ..
  | false =>
    cases hv : s.valid with
    | true =>
      rw [if_neg (by simp)]
      obtain ⟨x, u, hu, hexec⟩ := exec_of_valid hi hv
      obtain rfl := respond_eq_next_iff.mp (hexec.symm.trans h)
      have hkept : u.recordedFaults = s.recordedFaults := congrArg (List.filterMap Response.fault?) hu.responses_eq
      rw [← hkept]; exact recordedFaults_addResponse ..
    | false =>
      rw [if_pos ⟨rfl, rfl⟩]
      obtain rfl := respond_eq_next_iff.mp ((exec_of_not_valid hi hv).symm.trans h)
      exact recordedFaults_addResponse ..

/-- Settles O13: an idle step answers nothing, an illegal word is answered with its fault, and a legal one with the fault of
its command. -/
theorem faultsRecordedExactly : Obligations.FaultsRecordedExactly := by
  intro s t h
  refine ⟨fun hp => ?_, fun c rest hp => ⟨fun e hd => ?_, fun i hd => ?_⟩⟩
  · obtain rfl := Host.Outcome.next.inj ((step_of_idle hp).symm.trans h)
    rfl
  · obtain rfl := respond_eq_next_iff.mp ((step_of_illegal hp hd).symm.trans h)
    exact recordedFaults_addResponse ..
  · exact exec_recordedFaults (s := { s with pending := rest }) ((step_of_legal hp hd).symm.trans h)

/-! ### Power-on reset -/

/-- Settles O14: the reset state has `VALID` 0 and empty ports. -/
theorem powerOnHasNoInstance : Obligations.PowerOnHasNoInstance :=
  ⟨rfl, rfl, rfl, rfl, rfl⟩

end Sys2Proof.Machine
end
